-- ==== Sys2Proof/Word.lean ====
section
/-! DEFINITION. The word types of the machine (spec/00_scope.md R11, spec/30_encoding.md R72). -/

namespace Sys2Proof

/-- `u8`: register contents, memory bytes, timers, the immediate `kk` (R11, R74). -/
abbrev Byte := BitVec 8

/-- `u16`: `I`, `pc`, return addresses and instruction words (R11, R70). -/
abbrev Word := BitVec 16

/-- The 12-bit address field `nnn` (R72). -/
abbrev Addr12 := BitVec 12

/-- The index of a general register `V[0]` to `V[15]`, and of a key 0 to 15 (R20, R32). -/
abbrev Reg := Fin 16

/-- `VF`, the register that is also the flag (R21). -/
abbrev Reg.vf : Reg := 15

end Sys2Proof
end

