-- ==== Sys2Proof/Syntax.lean ====
section
/-! DEFINITION. The 34 instructions (spec/30_encoding.md R76, R85): one constructor per row of the
opcode table, each with the operand fields of its format (R73). -/

namespace Sys2Proof

/-- An instruction. `x`, `y` are register indices, `n` a row count 0 to 15, `kk` an 8-bit immediate and
`nnn` a 12-bit address (R72, R74). -/
inductive Instr where
  /-- 00E0 CLS (R130) -/
  | cls
  /-- 00EE RET (R140) -/
  | ret
  /-- 1nnn JP nnn (R141) -/
  | jp (nnn : Addr12)
  /-- 2nnn CALL nnn (R142) -/
  | call (nnn : Addr12)
  /-- 3xkk SE Vx, kk (R143) -/
  | seImm (x : Reg) (kk : Byte)
  /-- 4xkk SNE Vx, kk (R144) -/
  | sneImm (x : Reg) (kk : Byte)
  /-- 5xy0 SE Vx, Vy (R145) -/
  | seReg (x y : Reg)
  /-- 6xkk LD Vx, kk (R160) -/
  | ldImm (x : Reg) (kk : Byte)
  /-- 7xkk ADD Vx, kk (R161) -/
  | addImm (x : Reg) (kk : Byte)
  /-- 8xy0 LD Vx, Vy (R162) -/
  | ldReg (x y : Reg)
  /-- 8xy1 OR Vx, Vy (R163) -/
  | or (x y : Reg)
  /-- 8xy2 AND Vx, Vy (R164) -/
  | and (x y : Reg)
  /-- 8xy3 XOR Vx, Vy (R165) -/
  | xor (x y : Reg)
  /-- 8xy4 ADD Vx, Vy (R166) -/
  | addReg (x y : Reg)
  /-- 8xy5 SUB Vx, Vy (R167) -/
  | sub (x y : Reg)
  /-- 8xy6 SHR Vx, Vy (R168) -/
  | shr (x y : Reg)
  /-- 8xy7 SUBN Vx, Vy (R169) -/
  | subn (x y : Reg)
  /-- 8xyE SHL Vx, Vy (R170) -/
  | shl (x y : Reg)
  /-- 9xy0 SNE Vx, Vy (R146) -/
  | sneReg (x y : Reg)
  /-- Annn LD I, nnn (R190) -/
  | ldI (nnn : Addr12)
  /-- Bnnn JP V0, nnn (R147) -/
  | jpV0 (nnn : Addr12)
  /-- Cxkk RND Vx, kk (R180) -/
  | rnd (x : Reg) (kk : Byte)
  /-- Dxyn DRW Vx, Vy, n (R131) -/
  | drw (x y : Reg) (n : Fin 16)
  /-- Ex9E SKP Vx (R211) -/
  | skp (x : Reg)
  /-- ExA1 SKNP Vx (R212) -/
  | sknp (x : Reg)
  /-- Fx07 LD Vx, DT (R224) -/
  | ldVxDt (x : Reg)
  /-- Fx0A LD Vx, K (R213) -/
  | ldVxK (x : Reg)
  /-- Fx15 LD DT, Vx (R225) -/
  | ldDtVx (x : Reg)
  /-- Fx18 LD ST, Vx (R226) -/
  | ldStVx (x : Reg)
  /-- Fx1E ADD I, Vx (R191) -/
  | addIVx (x : Reg)
  /-- Fx29 LD F, Vx (R192) -/
  | ldFVx (x : Reg)
  /-- Fx33 LD B, Vx (R193) -/
  | ldBVx (x : Reg)
  /-- Fx55 LD [I], Vx (R194) -/
  | ldMemVx (x : Reg)
  /-- Fx65 LD Vx, [I] (R195) -/
  | ldVxMem (x : Reg)
deriving DecidableEq, Repr

/-- The row number of the instruction in the table of R76. -/
def Instr.row : Instr → Nat
  | .cls => 1
  | .ret => 2
  | .jp _ => 3
  | .call _ => 4
  | .seImm _ _ => 5
  | .sneImm _ _ => 6
  | .seReg _ _ => 7
  | .ldImm _ _ => 8
  | .addImm _ _ => 9
  | .ldReg _ _ => 10
  | .or _ _ => 11
  | .and _ _ => 12
  | .xor _ _ => 13
  | .addReg _ _ => 14
  | .sub _ _ => 15
  | .shr _ _ => 16
  | .subn _ _ => 17
  | .shl _ _ => 18
  | .sneReg _ _ => 19
  | .ldI _ => 20
  | .jpV0 _ => 21
  | .rnd _ _ => 22
  | .drw _ _ _ => 23
  | .skp _ => 24
  | .sknp _ => 25
  | .ldVxDt _ => 26
  | .ldVxK _ => 27
  | .ldDtVx _ => 28
  | .ldStVx _ => 29
  | .addIVx _ => 30
  | .ldFVx _ => 31
  | .ldBVx _ => 32
  | .ldMemVx _ => 33
  | .ldVxMem _ => 34

end Sys2Proof
end

