-- ==== Sys2Proof/WellFormed.lean ====
section
/-! DEFINITION. What is well formed: instruction words (spec/30_encoding.md R77), program images
(spec/40_execution_cycle.md R121) and key indices of the host (spec/45_input.md R215). An `Instr` term
needs no check: every value of an operand field is valid (R74), and the types hold exactly those values. -/

namespace Sys2Proof

/-- The function selectors `n` of the family 8 (R77). -/
def aluSelectors : List Nat := [0, 1, 2, 3, 4, 5, 6, 7, 0xE]

/-- The function selectors `kk` of the family E (R77). -/
def keySelectors : List Nat := [0x9E, 0xA1]

/-- The function selectors `kk` of the family F (R77). -/
def miscSelectors : List Nat := [0x07, 0x0A, 0x15, 0x18, 0x1E, 0x29, 0x33, 0x55, 0x65]

/-- The families of which every word is an instruction (R77). -/
def wholeFamilies : List Nat := [1, 2, 3, 4, 6, 7, 0xA, 0xB, 0xC, 0xD]

/-- `word.wellFormed`: the word is one of the 34 instructions, by the opcode map in prose (R77). -/
def Word.wellFormed (w : Word) : Bool :=
  let op := w.toNat / 4096
  let n := w.toNat % 16
  let kk := w.toNat % 256
  w.toNat == 0x00E0 || w.toNat == 0x00EE || wholeFamilies.contains op ||
    (op == 5 && n == 0) || (op == 9 && n == 0) || (op == 8 && aluSelectors.contains n) ||
    (op == 0xE && keySelectors.contains kk) || (op == 0xF && miscSelectors.contains kk)

/-- Every term of `Instr` is well formed: no operand encoding is illegal (R74), in any format. -/
def Instr.wellFormed : Instr → Bool
  | .cls | .ret => true
  | .jp _ | .call _ | .ldI _ | .jpV0 _ => true
  | .seImm _ _ | .sneImm _ _ | .ldImm _ _ | .addImm _ _ | .rnd _ _ => true
  | .seReg _ _ | .sneReg _ _ => true
  | .ldReg _ _ | .or _ _ | .and _ _ | .xor _ _ | .addReg _ _ | .sub _ _ | .shr _ _ | .subn _ _
  | .shl _ _ => true
  | .drw _ _ _ => true
  | .skp _ | .sknp _ | .ldVxDt _ | .ldVxK _ | .ldDtVx _ | .ldStVx _ | .addIVx _ | .ldFVx _
  | .ldBVx _ | .ldMemVx _ | .ldVxMem _ => true

/-- A program image fits between the load address 0x200 and the end of memory (R121). -/
def imageFits (image : List Byte) : Bool := decide (image.length ≤ 4096 - 0x200)

/-- A key index that the host may name (R215). -/
def keyIndexValid (k : Nat) : Bool := decide (k < 16)

end Sys2Proof
end

