-- ==== Sys2Proof/Decode.lean ====
section
/-! DEFINITION. The decoder, total on every word and every byte list and rejecting by name
(spec/30_encoding.md R71, R76 to R80), and the encoder written from the same table. -/

namespace Sys2Proof

/-- Why the decoder gives no instruction. -/
inductive DecodeError where
  /-- the word matches no row of the opcode table (R78) -/
  | unknownOpcode (w : Word)
  /-- fewer than two bytes are left: not a word (R70) -/
  | truncated
deriving DecidableEq, Repr

/-- The four bits of a register index or of `n` (R72). -/
def nibbleOf (r : Fin 16) : BitVec 4 := BitVec.ofFin r

/-- A word from its four nibbles, the high nibble first (R71). -/
def nibbles (op x y n : BitVec 4) : Word := op ++ x ++ y ++ n

/-- A word from its family, `x` and `kk`: the formats XKK and XF (R73). -/
def wordXkk (op : BitVec 4) (x : Reg) (kk : Byte) : Word := op ++ nibbleOf x ++ kk

/-- A word from its family, `x`, `y` and `n`: the formats XY0, XYF and XYN (R73). -/
def wordXyn (op : BitVec 4) (x y n : Fin 16) : Word :=
  nibbles op (nibbleOf x) (nibbleOf y) (nibbleOf n)

/-- A word from its family and `nnn`: the format NNN (R73). -/
def wordNnn (op : BitVec 4) (nnn : Addr12) : Word := op ++ nnn

/-- `op = w[15:12]` (R72). -/
def fieldOp (w : Word) : BitVec 4 := w.extractLsb' 12 4

/-- `x = w[11:8]` (R72). -/
def fieldX (w : Word) : Reg := (w.extractLsb' 8 4).toFin

/-- `y = w[7:4]` (R72). -/
def fieldY (w : Word) : Reg := (w.extractLsb' 4 4).toFin

/-- `n = w[3:0]` (R72). -/
def fieldN (w : Word) : Fin 16 := (w.extractLsb' 0 4).toFin

/-- `kk = w[7:0]` (R72). -/
def fieldKk (w : Word) : Byte := w.extractLsb' 0 8

/-- `nnn = w[11:0]` (R72). -/
def fieldNnn (w : Word) : Addr12 := w.extractLsb' 0 12

/-- Family 0: only 00E0 and 00EE are known (R77, R79). -/
def decodeFixed (w : Word) : Except DecodeError Instr :=
  if w = 0x00E0#16 then .ok .cls
  else if w = 0x00EE#16 then .ok .ret
  else .error (.unknownOpcode w)

/-- Family 8: the low nibble selects the operation (R73 format XYF, R77). -/
def decodeAlu (w : Word) : Except DecodeError Instr :=
  match fieldN w with
  | 0x0 => .ok (.ldReg (fieldX w) (fieldY w))
  | 0x1 => .ok (.or (fieldX w) (fieldY w))
  | 0x2 => .ok (.and (fieldX w) (fieldY w))
  | 0x3 => .ok (.xor (fieldX w) (fieldY w))
  | 0x4 => .ok (.addReg (fieldX w) (fieldY w))
  | 0x5 => .ok (.sub (fieldX w) (fieldY w))
  | 0x6 => .ok (.shr (fieldX w) (fieldY w))
  | 0x7 => .ok (.subn (fieldX w) (fieldY w))
  | 0xE => .ok (.shl (fieldX w) (fieldY w))
  | _ => .error (.unknownOpcode w)

/-- Family E: the low byte selects the operation (R73 format XF, R77). -/
def decodeKey (w : Word) : Except DecodeError Instr :=
  match fieldKk w with
  | 0x9E#8 => .ok (.skp (fieldX w))
  | 0xA1#8 => .ok (.sknp (fieldX w))
  | _ => .error (.unknownOpcode w)

/-- Family F: the low byte selects the operation (R73 format XF, R77). -/
def decodeMisc (w : Word) : Except DecodeError Instr :=
  match fieldKk w with
  | 0x07#8 => .ok (.ldVxDt (fieldX w))
  | 0x0A#8 => .ok (.ldVxK (fieldX w))
  | 0x15#8 => .ok (.ldDtVx (fieldX w))
  | 0x18#8 => .ok (.ldStVx (fieldX w))
  | 0x1E#8 => .ok (.addIVx (fieldX w))
  | 0x29#8 => .ok (.ldFVx (fieldX w))
  | 0x33#8 => .ok (.ldBVx (fieldX w))
  | 0x55#8 => .ok (.ldMemVx (fieldX w))
  | 0x65#8 => .ok (.ldVxMem (fieldX w))
  | _ => .error (.unknownOpcode w)

/-- `decode(word)`: the high nibble selects the family (R71), the rest follows the table of R76. -/
def decode (w : Word) : Except DecodeError Instr :=
  match fieldOp w with
  | 0x0#4 => decodeFixed w
  | 0x1#4 => .ok (.jp (fieldNnn w))
  | 0x2#4 => .ok (.call (fieldNnn w))
  | 0x3#4 => .ok (.seImm (fieldX w) (fieldKk w))
  | 0x4#4 => .ok (.sneImm (fieldX w) (fieldKk w))
  | 0x5#4 => if fieldN w = 0 then .ok (.seReg (fieldX w) (fieldY w)) else .error (.unknownOpcode w)
  | 0x6#4 => .ok (.ldImm (fieldX w) (fieldKk w))
  | 0x7#4 => .ok (.addImm (fieldX w) (fieldKk w))
  | 0x8#4 => decodeAlu w
  | 0x9#4 => if fieldN w = 0 then .ok (.sneReg (fieldX w) (fieldY w)) else .error (.unknownOpcode w)
  | 0xA#4 => .ok (.ldI (fieldNnn w))
  | 0xB#4 => .ok (.jpV0 (fieldNnn w))
  | 0xC#4 => .ok (.rnd (fieldX w) (fieldKk w))
  | 0xD#4 => .ok (.drw (fieldX w) (fieldY w) (fieldN w))
  | 0xE#4 => decodeKey w
  | 0xF#4 => decodeMisc w
  | _ => .error (.unknownOpcode w)  -- no nibble is left for this arm

/-- Two bytes read big-endian into a word (R56). -/
def wordOfBytes (hi lo : Byte) : Word := hi ++ lo

/-- The two bytes of a word as memory stores them, the high byte first (R56). -/
def bytesOfWord (w : Word) : List Byte := [w.extractLsb' 8 8, w.extractLsb' 0 8]

/-- Decode the first instruction of a byte list, and what is left of it (R70, R82). -/
def decodeBytes : List Byte → Except DecodeError (Instr × List Byte)
  | hi :: lo :: rest =>
    match decode (wordOfBytes hi lo) with
    | .ok i => .ok (i, rest)
    | .error e => .error e
  | _ => .error .truncated

/-- The word of an instruction, from the patterns of R76. -/
def encode : Instr → Word
  | .cls => 0x00E0#16
  | .ret => 0x00EE#16
  | .jp nnn => wordNnn 0x1#4 nnn
  | .call nnn => wordNnn 0x2#4 nnn
  | .seImm x kk => wordXkk 0x3#4 x kk
  | .sneImm x kk => wordXkk 0x4#4 x kk
  | .seReg x y => wordXyn 0x5#4 x y 0x0
  | .ldImm x kk => wordXkk 0x6#4 x kk
  | .addImm x kk => wordXkk 0x7#4 x kk
  | .ldReg x y => wordXyn 0x8#4 x y 0x0
  | .or x y => wordXyn 0x8#4 x y 0x1
  | .and x y => wordXyn 0x8#4 x y 0x2
  | .xor x y => wordXyn 0x8#4 x y 0x3
  | .addReg x y => wordXyn 0x8#4 x y 0x4
  | .sub x y => wordXyn 0x8#4 x y 0x5
  | .shr x y => wordXyn 0x8#4 x y 0x6
  | .subn x y => wordXyn 0x8#4 x y 0x7
  | .shl x y => wordXyn 0x8#4 x y 0xE
  | .sneReg x y => wordXyn 0x9#4 x y 0x0
  | .ldI nnn => wordNnn 0xA#4 nnn
  | .jpV0 nnn => wordNnn 0xB#4 nnn
  | .rnd x kk => wordXkk 0xC#4 x kk
  | .drw x y n => wordXyn 0xD#4 x y n
  | .skp x => wordXkk 0xE#4 x 0x9E#8
  | .sknp x => wordXkk 0xE#4 x 0xA1#8
  | .ldVxDt x => wordXkk 0xF#4 x 0x07#8
  | .ldVxK x => wordXkk 0xF#4 x 0x0A#8
  | .ldDtVx x => wordXkk 0xF#4 x 0x15#8
  | .ldStVx x => wordXkk 0xF#4 x 0x18#8
  | .addIVx x => wordXkk 0xF#4 x 0x1E#8
  | .ldFVx x => wordXkk 0xF#4 x 0x29#8
  | .ldBVx x => wordXkk 0xF#4 x 0x33#8
  | .ldMemVx x => wordXkk 0xF#4 x 0x55#8
  | .ldVxMem x => wordXkk 0xF#4 x 0x65#8

/-- The word that a table row of `nbits` bits and value `w` stands for: the bits above `nbits` are 0. -/
def tableWord (nbits w : Nat) : Word := BitVec.ofNat 16 (w % 2 ^ nbits)

/-- The instruction that the decoder reads from a word numbered as the opcode table numbers it: laid
out big-endian (R56) and given to `decodeBytes`. -/
def decodeTableWord (nbits w : Nat) : Option Instr :=
  match decodeBytes (bytesOfWord (tableWord nbits w)) with
  | .ok (i, _) => some i
  | .error _ => none

/-- One row of the table of R76: its number, its fixed bits and their mask. -/
structure OpcodeRow where
  number  : Nat
  pattern : Word
  mask    : Word
deriving DecidableEq, Repr

/-- The word has the row's fixed bits (R76). -/
def OpcodeRow.fits (r : OpcodeRow) (w : Word) : Bool := w &&& r.mask == r.pattern

/-- Rows 1 to 17 of the table of R76. -/
def opcodeRowsLow : List OpcodeRow :=
  [⟨1, 0x00E0, 0xFFFF⟩, ⟨2, 0x00EE, 0xFFFF⟩, ⟨3, 0x1000, 0xF000⟩, ⟨4, 0x2000, 0xF000⟩,
   ⟨5, 0x3000, 0xF000⟩, ⟨6, 0x4000, 0xF000⟩, ⟨7, 0x5000, 0xF00F⟩, ⟨8, 0x6000, 0xF000⟩,
   ⟨9, 0x7000, 0xF000⟩, ⟨10, 0x8000, 0xF00F⟩, ⟨11, 0x8001, 0xF00F⟩, ⟨12, 0x8002, 0xF00F⟩,
   ⟨13, 0x8003, 0xF00F⟩, ⟨14, 0x8004, 0xF00F⟩, ⟨15, 0x8005, 0xF00F⟩, ⟨16, 0x8006, 0xF00F⟩,
   ⟨17, 0x8007, 0xF00F⟩]

/-- Rows 18 to 34 of the table of R76. -/
def opcodeRowsHigh : List OpcodeRow :=
  [⟨18, 0x800E, 0xF00F⟩, ⟨19, 0x9000, 0xF00F⟩, ⟨20, 0xA000, 0xF000⟩, ⟨21, 0xB000, 0xF000⟩,
   ⟨22, 0xC000, 0xF000⟩, ⟨23, 0xD000, 0xF000⟩, ⟨24, 0xE09E, 0xF0FF⟩, ⟨25, 0xE0A1, 0xF0FF⟩,
   ⟨26, 0xF007, 0xF0FF⟩, ⟨27, 0xF00A, 0xF0FF⟩, ⟨28, 0xF015, 0xF0FF⟩, ⟨29, 0xF018, 0xF0FF⟩,
   ⟨30, 0xF01E, 0xF0FF⟩, ⟨31, 0xF029, 0xF0FF⟩, ⟨32, 0xF033, 0xF0FF⟩, ⟨33, 0xF055, 0xF0FF⟩,
   ⟨34, 0xF065, 0xF0FF⟩]

/-- The table of R76, its 34 rows as match and mask. -/
def opcodeRows : List OpcodeRow := opcodeRowsLow ++ opcodeRowsHigh

end Sys2Proof
end

