-- ==== Sys2Proof/Machine/Flags.lean ====
section
/-! DEFINITION. The values that instructions write to `VF` (spec/43_alu.md R166 to R170,
spec/41_display.md R134). Each is computed from the operands at the start of the instruction (R108). -/

namespace Sys2Proof.Machine

/-- A flag as the byte that `VF` holds: 1 or 0. -/
def flagByte (b : Bool) : Byte := if b then 1 else 0

/-- 8xy4: 1 when the exact sum is above 255 (R166). -/
def carryFlag (vx vy : Byte) : Byte := flagByte (decide (vx.toNat + vy.toNat > 255))

/-- 8xy5 and 8xy7: 1 when `a - b` needs no borrow, `a ≥ b` (R167, R169). -/
def noBorrowFlag (a b : Byte) : Byte := flagByte (decide (a.toNat ≥ b.toNat))

/-- 8xy6: the bit that a right shift by one shifts out (R168). -/
def shiftRightFlag (v : Byte) : Byte := v &&& 1

/-- 8xyE: the bit that a left shift by one shifts out (R170). -/
def shiftLeftFlag (v : Byte) : Byte := (v >>> 7) &&& 1

/-- Dxyn: 1 when a pixel went from on to off (R134). -/
def erasedFlag (erased : Bool) : Byte := flagByte erased

end Sys2Proof.Machine
end

