-- ==== Sys2Proof/Config.lean ====
section
/-! DEFINITION. What an implementation fixes (the OPEN parameters of spec/00_scope.md R7) and the one
free value of the machine, the random byte of Cxkk (spec/43_alu.md R180). -/

namespace Sys2Proof

/-- `SHIFT_SOURCE`: the register that 8xy6 and 8xyE shift (R7, 92_eei_decisions.md D9). -/
inductive ShiftSource where
  /-- the table's form: `Vx` is shifted into `Vx` -/
  | vx
  /-- the divergent form: `Vy` is shifted into `Vx` -/
  | vy
deriving DecidableEq, Repr

/-- `JUMP_OFFSET`: the register that Bnnn adds (R7, 92_eei_decisions.md D10). -/
inductive JumpOffset where
  /-- the table's form: `nnn + V0` -/
  | v0Addr
  /-- the divergent form: `nnn + V[nnn[11:8]]` -/
  | vxXnn
deriving DecidableEq, Repr

/-- The OPEN parameters of R7, fixed when the machine is constructed and changed by nothing (R270). -/
structure Config where
  /-- `STACK_CAPACITY`: `some n` bounds the call stack, `none` leaves it unbounded (R27) -/
  stackCapacity : Option Nat
  /-- `SHIFT_SOURCE` -/
  shiftSource   : ShiftSource
  /-- `JUMP_OFFSET` -/
  jumpOffset    : JumpOffset
  /-- `FONT`: the 80 bytes that reset writes at `M[0..79]` (R33) -/
  font          : Vector Byte 80
deriving DecidableEq, Repr

/-- The rows of the reference glyphs 0 to 7, top to bottom (R33).
PRESUMED (G1 of 93_implementation_defined.md, log entry 9): the bytes are general knowledge. -/
def Config.referenceFontLow : List Byte :=
  [0xF0, 0x90, 0x90, 0x90, 0xF0] ++ [0x20, 0x60, 0x20, 0x20, 0x70] ++
  [0xF0, 0x10, 0xF0, 0x80, 0xF0] ++ [0xF0, 0x10, 0xF0, 0x10, 0xF0] ++
  [0x90, 0x90, 0xF0, 0x10, 0x10] ++ [0xF0, 0x80, 0xF0, 0x10, 0xF0] ++
  [0xF0, 0x80, 0xF0, 0x90, 0xF0] ++ [0xF0, 0x10, 0x20, 0x40, 0x40]

/-- The rows of the reference glyphs 8 to F (R33). PRESUMED, as `Config.referenceFontLow`. -/
def Config.referenceFontHigh : List Byte :=
  [0xF0, 0x90, 0xF0, 0x90, 0xF0] ++ [0xF0, 0x90, 0xF0, 0x10, 0xF0] ++
  [0xF0, 0x90, 0xF0, 0x90, 0x90] ++ [0xE0, 0x90, 0xE0, 0x90, 0xE0] ++
  [0xF0, 0x80, 0x80, 0x80, 0xF0] ++ [0xE0, 0x90, 0x90, 0x90, 0xE0] ++
  [0xF0, 0x80, 0xF0, 0x80, 0xF0] ++ [0xF0, 0x80, 0xF0, 0x80, 0x80]

/-- The reference values of R7 and R8: the machine that the opcode table describes. -/
def Config.reference : Config where
  stackCapacity := some 16
  shiftSource   := .vx
  jumpOffset    := .v0Addr
  font          := ⟨(Config.referenceFontLow ++ Config.referenceFontHigh).toArray, rfl⟩

/-- `random_byte()` (R180): the free value of the `k`-th draw. It has no body, so nothing can be
proved of its value, and a claim holds for every byte drawn (log entry 4). -/
opaque Config.randomByte : Nat → Byte

end Sys2Proof
end

