-- ==== Sys2Proof/Machine/State.lean ====
section
/-! DEFINITION. The state of the machine (spec/10_state.md), the errors it records
(spec/60_exceptions.md R240), the moves its agents make (spec/00_scope.md R6) and its reset state (R43). -/

namespace Sys2Proof.Machine

/-- The memory bank as the cells that differ from the reset contents, addresses rising (20_memory.md
R50); `Memory.wf` states the form and `Memory.read` reads one byte. -/
abbrev Memory := List Host.Cell

/-- The display buffer, `disp[column][row]`, 64 columns of 32 pixels, `true` is on (R31). -/
abbrev Display := Vector (Vector Bool 32) 64

/-- The key vector, `keys[k]` is `true` while key `k` is pressed (R32). -/
abbrev Keys := Vector Bool 16

/-- The four error kinds with their records (60_exceptions.md R240); `a` is the address of the
instruction that raised it. The machine REACHES these as a state, `Status.faulted`: `raise` puts the
error there as R243 says, and `step` answers with that state. No outcome of `step` or `exec` is
`Outcome.fault`, since the spec gives every error its effect (log entry 5): safe, nothing is cut off. -/
inductive Fault where
  /-- 2nnn with the stack at capacity (42_control_flow.md R142): safe -/
  | stackOverflow (a : Word)
  /-- 00EE with the stack empty (42_control_flow.md R140): safe -/
  | stackUnderflow (a : Word)
  /-- fetch, Dxyn, Fx33, Fx55 or Fx65 past 4095 with `v` the lowest unmapped address, or Ex9E or ExA1
  with `v` the key index above 15 (R240, R241): safe but for `v` (log entry 8) -/
  | outOfBounds (v : Nat) (a : Word)
  /-- the fetched word is none of the 34 instructions (40_execution_cycle.md R106): safe -/
  | unknownOpcode (word a : Word)
deriving DecidableEq, Repr

/-- Why the model gives a move no meaning. -/
inductive Refusal where
  /-- raised by an arm of `exec` that has no meaning yet (none is left): safe -/
  | notModelled (mnemonic : String)
  /-- raised by the host move `set_key` with an index above 15, which R215 says the host does not have
  and a model refuses: safe -/
  | keyIndexOutOfRange (k : Nat)
deriving DecidableEq, Repr

/-- The run state of the interpreter (R40). -/
inductive Status where
  /-- the next step fetches at `pc` -/
  | running
  /-- Fx0A waits for a key to be pressed; `sample` is the key vector last seen (45_input.md R213) -/
  | awaitingKey (x : Reg) (sample : Keys)
  /-- a step reported `e`; the interpreter is halted until reset (60_exceptions.md R243, R244) -/
  | faulted (e : Fault)
deriving DecidableEq, Repr

/-- The moves of the three agents that change the state (00_scope.md R6, 40_execution_cycle.md R120). -/
inductive Move where
  /-- `step()`, the interpreter -/
  | step
  /-- `tick_timers()`, the timer pair -/
  | tick
  /-- `reset()`, the host -/
  | reset
  /-- `load(bytes)`, the host -/
  | load (image : List Byte)
  /-- `set_key(k, pressed)`, the host -/
  | setKey (k : Nat) (pressed : Bool)
deriving DecidableEq, Repr

/-- The whole state: the record of 10_state.md, and after it three fields of the model's own. -/
structure State where
  /-- `M`, the memory bank (20_memory.md R50) -/
  mem      : Memory
  /-- `V0` to `VF` (R20) -/
  V        : Vector Byte 16
  /-- the address register (R23) -/
  I        : Word
  /-- the program counter; between steps the address of the next instruction (R24) -/
  pc       : Word
  /-- the call stack, the last element is the top (R27) -/
  stack    : List Word
  /-- the delay timer (R30) -/
  DT       : Byte
  /-- the sound timer (R30) -/
  ST       : Byte
  /-- the display buffer (R31) -/
  disp     : Display
  /-- the input state (R32) -/
  keys     : Keys
  /-- the run state (R40) -/
  status   : Status
  /-- the OPEN parameters of 00_scope.md R7, which nothing changes (log entry 3) -/
  config   : Config
  /-- the model's own: how many random bytes have been drawn (log entry 4) -/
  draws    : Nat
  /-- the model's own: the moves that the caller has still to make, oldest first; when none is left the
  caller calls `step()` (20_memory.md R60, log entry 2) -/
  schedule : List Move
deriving DecidableEq, Repr

/-- The state after construction with the parameters `c`: the table of R43 (R271). -/
def State.initial (c : Config) : State where
  mem      := []
  V        := Vector.replicate 16 0
  I        := 0
  pc       := 0x0200
  stack    := []
  DT       := 0
  ST       := 0
  disp     := Vector.replicate 64 (Vector.replicate 32 false)
  keys     := Vector.replicate 16 false
  status   := .running
  config   := c
  draws    := 0
  schedule := []

/-- The machine right after reset, with the reference parameters (R8, R43). -/
def State.reset : State := State.initial Config.reference

end Sys2Proof.Machine
end

