-- ==== Sys2Proof/Machine/Memory.lean ====
section
/-! DEFINITION. The memory bank as a canonical list of cells (spec/20_memory.md R50, R54): what an
unlisted address reads as, reading and writing one byte, writing a run of bytes. -/

namespace Sys2Proof.Machine

/-- What an address that no cell lists reads as: the reset contents, the font at 0 to 79 and 0 elsewhere
(R43, R54; log entry 26). -/
def Memory.blank (c : Config) (a : Nat) : Byte := if h : a < 80 then c.font[a] else 0

/-- One byte of the bank. -/
def Memory.read (c : Config) : Memory → Nat → Byte
  | [], a => Memory.blank c a
  | (b, v) :: rest, a => if a = b then v else Memory.read c rest a

/-- The cells without those of address `a`. -/
def Memory.without (a : Nat) (m : Memory) : Memory := m.filter fun cell => cell.1 != a

/-- Put a cell before the first cell of a higher address. -/
def Memory.place (a : Nat) (v : Byte) : Memory → Memory
  | [] => [(a, v)]
  | (b, w) :: rest => if a < b then (a, v) :: (b, w) :: rest else (b, w) :: Memory.place a v rest

/-- Write one byte, keeping the canonical form: the value an unlisted address reads as is not listed. -/
def Memory.write (c : Config) (a : Nat) (v : Byte) (m : Memory) : Memory :=
  if v = Memory.blank c a then Memory.without a m else Memory.place a v (Memory.without a m)

/-- Write bytes at `a`, `a + 1`, … (R52). -/
def Memory.writeAll (c : Config) : Nat → List Byte → Memory → Memory
  | _, [], m => m
  | a, v :: vs, m => Memory.writeAll c (a + 1) vs (Memory.write c a v m)

/-- The canonical form: addresses strictly rising and below 4096, no cell equal to what its address reads
as unlisted. -/
abbrev Memory.wf (c : Config) (m : Memory) : Prop :=
  m.Pairwise (fun p q => p.1 < q.1) ∧ ∀ p ∈ m, p.1 < 4096 ∧ p.2 ≠ Memory.blank c p.1

end Sys2Proof.Machine
end

