-- ==== Sys2Proof/Machine/Ops.lean ====
section
/-! DEFINITION. The named operations on the state: fields, registers, memory (spec/20_memory.md R51, R52),
the call stack (spec/10_state.md R28, R29), the pc advance and the skip (spec/40_execution_cycle.md R105,
R107) and the raising of an error (spec/60_exceptions.md R243). -/

namespace Sys2Proof.Machine

/-- What a step or a meaning answers. -/
abbrev Result := Host.Outcome State Fault Refusal

/-! Field updates. -/

/-- Replace the memory bank. -/
def State.setMem (s : State) (m : Memory) : State := { s with mem := m }
/-- Replace the register file. -/
def State.setRegs (s : State) (v : Vector Byte 16) : State := { s with V := v }
/-- `I <- v`. -/
def State.setI (s : State) (v : Word) : State := { s with I := v }
/-- `pc <- t` (R12). -/
def State.setPc (s : State) (t : Word) : State := { s with pc := t }
/-- Replace the call stack. -/
def State.setStack (s : State) (l : List Word) : State := { s with stack := l }
/-- `DT <- v`. -/
def State.setDT (s : State) (v : Byte) : State := { s with DT := v }
/-- `ST <- v`. -/
def State.setST (s : State) (v : Byte) : State := { s with ST := v }
/-- Replace the display buffer. -/
def State.setDisp (s : State) (d : Display) : State := { s with disp := d }
/-- Replace the key vector. -/
def State.setKeys (s : State) (k : Keys) : State := { s with keys := k }
/-- `status <- st`. -/
def State.setStatus (s : State) (st : Status) : State := { s with status := st }
/-- Set the number of draws made. -/
def State.setDraws (s : State) (n : Nat) : State := { s with draws := n }
/-- Set the moves still to come. -/
def State.setSchedule (s : State) (ms : List Move) : State := { s with schedule := ms }

/-! Registers. -/

/-- `V[r]` (R20): every register is readable, none is hardwired. -/
def State.readV (s : State) (r : Reg) : Byte := s.V.get r

/-- `V[r] <- v` (R12, R20). -/
def State.writeV (s : State) (r : Reg) (v : Byte) : State := s.setRegs (s.V.set r.val v r.isLt)

/-! The program counter. -/

/-- The advance of a successful fetch, `pc <- a + 2` (R105). -/
def State.advance (s : State) : State := s.setPc (s.pc + 2)

/-- "skip next instruction": `pc <- pc + 2` beyond the fetch advance (R107). -/
def State.skip (s : State) : State := s.setPc (s.pc + 2)

/-- The fetch advance, and the skip when the condition holds (R105, R107). -/
def State.advanceSkipIf (s : State) (skipNext : Bool) : State :=
  if skipNext then s.advance.skip else s.advance

/-! Errors. -/

/-- TAKING AN ERROR: `raise e` from the state before the step. Everything keeps its value from before the
step, `pc` the address of the instruction among them, and only `status` becomes `Faulted(e)` (R110,
R243). There is no return from it but `reset()` (R245). -/
def raise (e : Fault) (s : State) : Result := .next (s.setStatus (.faulted e))

/-- Go on with the value of an operation, or raise its error. -/
def attempt {α : Type} (s : State) (r : Except Fault α) (go : α → Result) : Result :=
  match r with
  | .ok v => go v
  | .error e => raise e s

/-! Memory. -/

/-- One byte at an address of the bank, without the range check. -/
def State.byteAt (s : State) (a : Nat) : Byte := Memory.read s.config s.mem a

/-- `MemRead(a, 1)`: the byte, or `OutOfBounds(a)` when `a` is at or above 4096 (R51). The record's
address is that of the instruction in execution, `pc` before the step. -/
def memRead (s : State) (a : Nat) : Except Fault Byte :=
  if a < 4096 then .ok (s.byteAt a) else .error (.outOfBounds a s.pc)

/-- `MemRead` at `a`, `a + 1`, … for `n` bytes; the first unmapped address raises (R53, R131). -/
def memReadAll (s : State) (a : Nat) : Nat → Except Fault (List Byte)
  | 0 => .ok []
  | n + 1 =>
    match memRead s a with
    | .error e => .error e
    | .ok b =>
      match memReadAll s (a + 1) n with
      | .error e => .error e
      | .ok bs => .ok (b :: bs)

/-- `MemWrite(a, n, bytes)`: all the bytes, or `OutOfBounds(max(a, 4096))` and nothing written (R52). -/
def memWrite (s : State) (a : Nat) (bytes : List Byte) : Except Fault Memory :=
  if a + bytes.length ≤ 4096 then .ok (Memory.writeAll s.config a bytes s.mem)
  else .error (.outOfBounds (max a 4096) s.pc)

/-! The call stack. -/

/-- `Push(v)`: append, or `StackOverflow` when the length is the capacity (R28). -/
def push (s : State) (v : Word) : Except Fault (List Word) :=
  if s.config.stackCapacity = some s.stack.length then .error (.stackOverflow s.pc)
  else .ok (s.stack ++ [v])

/-- `Pop()`: the last entry and the stack without it, or `StackUnderflow` when empty (R29). -/
def pop (s : State) : Except Fault (Word × List Word) :=
  match s.stack.getLast? with
  | some v => .ok (v, s.stack.dropLast)
  | none => .error (.stackUnderflow s.pc)

end Sys2Proof.Machine
end

