-- ==== Sys2Proof/Machine/Operands.lean ====
section
/-! DEFINITION. The operand forms (spec/30_encoding.md R74, R75): immediates, the register that a shift or
a jump names, the base address in `I`, the register block `V0..Vx`, the glyph address, decimal digits,
and the key index. -/

namespace Sys2Proof.Machine

/-- `zext_16(nnn)`: a 12-bit address as a word (R74). -/
def addrOperand (nnn : Addr12) : Word := nnn.setWidth 16

/-- `zext_16(v)`: a register as a word (R11). -/
def wideOperand (v : Byte) : Word := v.setWidth 16

/-- The register that 8xy6 and 8xyE shift (43_alu.md R168, R170). The `vy` form is PRESUMED (G5, log
entry 12). -/
def shiftOperand (s : State) (x y : Reg) : Reg :=
  match s.config.shiftSource with
  | .vx => x
  | .vy => y

/-- The register that Bnnn adds (42_control_flow.md R147). The `vxXnn` form is PRESUMED (G6, log entry
13). -/
def jumpOperand (s : State) (nnn : Addr12) : Reg :=
  match s.config.jumpOffset with
  | .v0Addr => 0
  | .vxXnn => (nnn.extractLsb' 8 4).toFin

/-- The address that Dxyn, Fx33, Fx55 and Fx65 start from: `I` as an exact natural number, never masked
(20_memory.md R53). -/
def baseAddress (s : State) : Nat := s.I.toNat

/-- `FONT_BASE + 5 * (v & 0xF)`: the address of the glyph of the low nibble (44_index_memory.md R192). -/
def glyphAddress (v : Byte) : Word := 5 * wideOperand (v &&& 0xF)

/-- The decimal digits of a byte, hundreds, tens, ones (44_index_memory.md R193). -/
def decimalDigits (v : Byte) : List Byte := [v / 100, (v / 10) % 10, v % 10]

/-- `[V[0], …, V[x]]`: the block that Fx55 stores (44_index_memory.md R194). -/
def registerBlock (s : State) (x : Reg) : List Byte := s.V.toList.take (x.val + 1)

/-- The register file with the bytes in `V[0]`, `V[1]`, … and the rest kept (44_index_memory.md R195). -/
def withRegisterBlock (regs : Vector Byte 16) (bytes : List Byte) : Vector Byte 16 :=
  Vector.ofFn fun i : Fin 16 => (bytes[i.val]?).getD (regs.get i)

/-- The key index in a register: 0 to 15, or `OutOfBounds(k)` above (45_input.md R216). -/
def keyOperand (s : State) (x : Reg) : Except Fault Reg :=
  if h : (s.readV x).toNat < 16 then .ok ⟨(s.readV x).toNat, h⟩
  else .error (.outOfBounds (s.readV x).toNat s.pc)

end Sys2Proof.Machine
end

