-- ==== Sys2Proof/Machine/Alu.lean ====
section
/-! DEFINITION. Register loads and arithmetic (spec/43_alu.md): 6xkk, 7xkk, 8xy0 to 8xy7, 8xyE, Cxkk. None
raises an error. Every meaning takes the state before the fetch advance (log entry 25). -/

namespace Sys2Proof.Machine

/-- 6xkk: `V[x] <- kk` (R160). -/
def execLdImm (x : Reg) (kk : Byte) (s : State) : Result := .next (s.advance.writeV x kk)

/-- 7xkk: `V[x] <- V[x] +8 kk`, no flag (R161). -/
def execAddImm (x : Reg) (kk : Byte) (s : State) : Result := .next (s.advance.writeV x (s.readV x + kk))

/-- 8xy0: `V[x] <- V[y]` (R162). -/
def execLdReg (x y : Reg) (s : State) : Result := .next (s.advance.writeV x (s.readV y))

/-- 8xy1: `V[x] <- V[x] | V[y]`, no flag (R163, log entry 14). -/
def execOr (x y : Reg) (s : State) : Result := .next (s.advance.writeV x (s.readV x ||| s.readV y))

/-- 8xy2: `V[x] <- V[x] & V[y]`, no flag (R164, log entry 14). -/
def execAnd (x y : Reg) (s : State) : Result := .next (s.advance.writeV x (s.readV x &&& s.readV y))

/-- 8xy3: `V[x] <- V[x] ^ V[y]`, no flag (R165, log entry 14). -/
def execXor (x y : Reg) (s : State) : Result := .next (s.advance.writeV x (s.readV x ^^^ s.readV y))

/-- 8xy4: the sum, then the carry, which wins when `x = 15` (R166, R108). -/
def execAddReg (x y : Reg) (s : State) : Result :=
  .next ((s.advance.writeV x (s.readV x + s.readV y)).writeV Reg.vf
    (carryFlag (s.readV x) (s.readV y)))

/-- 8xy5: the difference, then the no-borrow flag, which wins when `x = 15` (R167, R108). -/
def execSub (x y : Reg) (s : State) : Result :=
  .next ((s.advance.writeV x (s.readV x - s.readV y)).writeV Reg.vf
    (noBorrowFlag (s.readV x) (s.readV y)))

/-- 8xy7: the reverse difference, then the no-borrow flag, which wins when `x = 15` (R169, R108). -/
def execSubn (x y : Reg) (s : State) : Result :=
  .next ((s.advance.writeV x (s.readV y - s.readV x)).writeV Reg.vf
    (noBorrowFlag (s.readV y) (s.readV x)))

/-- The order of 8xy6 and 8xyE: `VF` gets the bit shifted out of the operand, then `V[x]` gets the operand
shifted, read AFTER the flag is written (R108, R168, R170; log entry 11). -/
def shiftInto (x operand : Reg) (flag shifted : Byte → Byte) (s : State) : State :=
  let flagged := s.writeV Reg.vf (flag (s.readV operand))
  flagged.writeV x (shifted (flagged.readV operand))

/-- 8xy6: shift right by one, the bit shifted out in `VF` (R168). -/
def execShr (x y : Reg) (s : State) : Result :=
  .next (shiftInto x (shiftOperand s x y) shiftRightFlag (fun v => v >>> 1) s.advance)

/-- 8xyE: shift left by one, the bit shifted out in `VF` (R170). -/
def execShl (x y : Reg) (s : State) : Result :=
  .next (shiftInto x (shiftOperand s x y) shiftLeftFlag (fun v => v <<< 1) s.advance)

/-- Cxkk: a free byte masked with `kk`; the next draw is another free byte (R180, log entry 4). -/
def execRnd (x : Reg) (kk : Byte) (s : State) : Result :=
  .next ((s.advance.setDraws (s.draws + 1)).writeV x (Config.randomByte s.draws &&& kk))

end Sys2Proof.Machine
end

