-- ==== Sys2Proof/Machine/Control.lean ====
section
/-! DEFINITION. Control transfer (spec/42_control_flow.md): 00EE, 1nnn, 2nnn, 3xkk, 4xkk, 5xy0, 9xy0, Bnnn.
Targets are neither aligned nor range checked: the next fetch finds a bad one (R148). -/

namespace Sys2Proof.Machine

/-- 00EE: `pc <- Pop()`, or `StackUnderflow` (R140). -/
def execRet (s : State) : Result :=
  attempt s (pop s) fun popped => .next ((s.setStack popped.2).setPc popped.1)

/-- 1nnn: `pc <- nnn` (R141). -/
def execJp (nnn : Addr12) (s : State) : Result := .next (s.setPc (addrOperand nnn))

/-- 2nnn: `Push(a + 2)`, then `pc <- nnn`, or `StackOverflow` (R142). -/
def execCall (nnn : Addr12) (s : State) : Result :=
  attempt s (push s s.advance.pc) fun stack => .next ((s.setStack stack).setPc (addrOperand nnn))

/-- 3xkk: skip if `V[x] = kk` (R143). -/
def execSeImm (x : Reg) (kk : Byte) (s : State) : Result :=
  .next (s.advanceSkipIf (decide (s.readV x = kk)))

/-- 4xkk: skip if `V[x] ≠ kk` (R144). -/
def execSneImm (x : Reg) (kk : Byte) (s : State) : Result :=
  .next (s.advanceSkipIf (decide (s.readV x ≠ kk)))

/-- 5xy0: skip if `V[x] = V[y]` (R145). -/
def execSeReg (x y : Reg) (s : State) : Result :=
  .next (s.advanceSkipIf (decide (s.readV x = s.readV y)))

/-- 9xy0: skip if `V[x] ≠ V[y]` (R146). -/
def execSneReg (x y : Reg) (s : State) : Result :=
  .next (s.advanceSkipIf (decide (s.readV x ≠ s.readV y)))

/-- Bnnn: `pc <- nnn + V0`, or `nnn + V[nnn[11:8]]`, the exact sum of at most 0x10FE (R147). -/
def execJpV0 (nnn : Addr12) (s : State) : Result :=
  .next (s.setPc (addrOperand nnn + wideOperand (s.readV (jumpOperand s nnn))))

end Sys2Proof.Machine
end

