-- ==== Sys2Proof/Machine/Display.lean ====
section
/-! DEFINITION. The display controller (spec/41_display.md): 00E0 and Dxyn. -/

namespace Sys2Proof.Machine

/-- `disp[c][r]` (R31). -/
def Display.pixel (d : Display) (c : Fin 64) (r : Fin 32) : Bool := (d.get c).get r

/-- `disp[c][r] <- not disp[c][r]`. -/
def Display.flip (d : Display) (c : Fin 64) (r : Fin 32) : Display :=
  d.set c.val ((d.get c).set r.val (!(d.pixel c r)) r.isLt) c.isLt

/-- Every pixel off (R130). -/
def Display.clear : Display := Vector.replicate 64 (Vector.replicate 32 false)

/-- `(vx + c) mod 64`, on the exact sum (R133). -/
def pixelColumn (vx : Byte) (c : Nat) : Fin 64 := ⟨(vx.toNat + c) % 64, Nat.mod_lt _ (by decide)⟩

/-- `(vy + r) mod 32`, on the exact sum (R133). -/
def pixelRow (vy : Byte) (r : Nat) : Fin 32 := ⟨(vy.toNat + r) % 32, Nat.mod_lt _ (by decide)⟩

/-- The column offset `c` of a sprite byte is on: bit `7 - c`, so bit 7 is the leftmost pixel (R132).
PRESUMED (G2, log entry 10). -/
def spriteBit (row : Byte) (c : Nat) : Bool := row.getLsbD (7 - c)

/-- The pixels that row `r` of a sprite touches, left to right (R131). -/
def rowPixels (vx vy : Byte) (r : Nat) (row : Byte) : List (Fin 64 × Fin 32) :=
  ((List.range 8).filter (spriteBit row)).map fun c => (pixelColumn vx c, pixelRow vy r)

/-- The pixels that the rows from row `r` on touch, top to bottom (R131). -/
def spritePixels (vx vy : Byte) : Nat → List Byte → List (Fin 64 × Fin 32)
  | _, [] => []
  | r, row :: rows => rowPixels vx vy r row ++ spritePixels vx vy (r + 1) rows

/-- Flip the pixels in turn, and record whether one went from on to off (R131, R134). -/
def flipPixels : List (Fin 64 × Fin 32) → Display → Bool → Display × Bool
  | [], d, erased => (d, erased)
  | p :: ps, d, erased => flipPixels ps (d.flip p.1 p.2) (erased || d.pixel p.1 p.2)

/-- XOR a sprite onto the display at `(vx, vy)`, with the erased mark (R131). -/
def drawSprite (vx vy : Byte) (rows : List Byte) (d : Display) : Display × Bool :=
  flipPixels (spritePixels vx vy 0 rows) d false

/-- 00E0: clear the display (R130). -/
def execCls (s : State) : Result := .next (s.advance.setDisp Display.clear)

/-- Dxyn: read all `n` rows or raise `OutOfBounds` (R136), flip their pixels, write `VF` last (R131). -/
def execDrw (x y : Reg) (n : Fin 16) (s : State) : Result :=
  attempt s (memReadAll s (baseAddress s) n.val) fun rows =>
    let drawn := drawSprite (s.readV x) (s.readV y) rows s.disp
    .next ((s.advance.setDisp drawn.1).writeV Reg.vf (erasedFlag drawn.2))

end Sys2Proof.Machine
end

