-- ==== Sys2Proof/Machine/IndexMemory.lean ====
section
/-! DEFINITION. The address register and memory transfers (spec/44_index_memory.md): Annn, Fx1E, Fx29, Fx33,
Fx55, Fx65. No access changes `I` (log entry 14); every check is before every write (R110). -/

namespace Sys2Proof.Machine

/-- Annn: `I <- nnn` (R190). -/
def execLdI (nnn : Addr12) (s : State) : Result := .next (s.advance.setI (addrOperand nnn))

/-- Fx1E: `I <- I +16 V[x]`, no flag (R191). -/
def execAddIVx (x : Reg) (s : State) : Result :=
  .next (s.advance.setI (s.I + wideOperand (s.readV x)))

/-- Fx29: `I` points at the glyph of the low nibble of `V[x]` (R192). -/
def execLdFVx (x : Reg) (s : State) : Result := .next (s.advance.setI (glyphAddress (s.readV x)))

/-- Fx33: store the decimal digits of `V[x]` at `I`, `I+1`, `I+2` (R193). -/
def execLdBVx (x : Reg) (s : State) : Result :=
  attempt s (memWrite s (baseAddress s) (decimalDigits (s.readV x))) fun m =>
    .next (s.advance.setMem m)

/-- Fx55: store `V[0]` to `V[x]` from `I` on (R194). -/
def execLdMemVx (x : Reg) (s : State) : Result :=
  attempt s (memWrite s (baseAddress s) (registerBlock s x)) fun m => .next (s.advance.setMem m)

/-- Fx65: load `V[0]` to `V[x]` from `I` on, all bytes read before a register is written (R195). -/
def execLdVxMem (x : Reg) (s : State) : Result :=
  attempt s (memReadAll s (baseAddress s) (x.val + 1)) fun bytes =>
    .next (s.advance.setRegs (withRegisterBlock s.V bytes))

end Sys2Proof.Machine
end

