-- ==== Sys2Proof/Machine/Input.lean ====
section
/-! DEFINITION. The input sampler (spec/45_input.md): Ex9E, ExA1, Fx0A and the poll of the key wait. No
instruction writes the key vector (R210). -/

namespace Sys2Proof.Machine

/-- Ex9E: skip if the key in `V[x]` is pressed, or `OutOfBounds` above 15 (R211, R216). -/
def execSkp (x : Reg) (s : State) : Result :=
  attempt s (keyOperand s x) fun k => .next (s.advanceSkipIf (s.keys.get k))

/-- ExA1: skip if the key in `V[x]` is not pressed, or `OutOfBounds` above 15 (R212, R216). -/
def execSknp (x : Reg) (s : State) : Result :=
  attempt s (keyOperand s x) fun k => .next (s.advanceSkipIf (!(s.keys.get k)))

/-- Fx0A: wait; `pc` stays at the Fx0A and the first sample is the key vector now (R213). -/
def execLdVxK (x : Reg) (s : State) : Result := .next (s.setStatus (.awaitingKey x s.keys))

/-- A key is pressed now that was not in the sample (R214). -/
def newlyPressed (sample now : Keys) : Bool :=
  (List.finRange 16).any fun k => now.get k && !(sample.get k)

/-- The lowest-indexed pressed key (R214). -/
def lowestPressed (now : Keys) : Option Reg := (List.finRange 16).find? fun k => now.get k

/-- The key that ends the wait, when one was pressed since the sample (R214). -/
def wakingKey (sample now : Keys) : Option Reg :=
  if newlyPressed sample now then lowestPressed now else none

/-- `poll_key_wait(x, sample)`: resume past the Fx0A with the key in `V[x]`, or keep waiting with the new
sample (R214). -/
def pollKeyWait (x : Reg) (sample : Keys) (s : State) : State :=
  match wakingKey sample s.keys with
  | some k => ((s.writeV x (BitVec.ofNat 8 k.val)).advance).setStatus .running
  | none => s.setStatus (.awaitingKey x s.keys)

end Sys2Proof.Machine
end

