-- ==== Sys2Proof/Machine/Timers.lean ====
section
/-! DEFINITION. The timer pair (spec/46_timers.md): the tick, Fx07, Fx15, Fx18 and the sound output. -/

namespace Sys2Proof.Machine

/-- A counter decremented by 1, floored at 0 (R221). -/
def countDown (t : Byte) : Byte := if t = 0 then 0 else t - 1

/-- `tick_timers()`: both counters, nothing else, in every status (R221, R227). -/
def tickTimers (s : State) : State := (s.setDT (countDown s.DT)).setST (countDown s.ST)

/-- Fx07: `V[x] <- DT` (R224). -/
def execLdVxDt (x : Reg) (s : State) : Result := .next (s.advance.writeV x s.DT)

/-- Fx15: `DT <- V[x]` (R225). -/
def execLdDtVx (x : Reg) (s : State) : Result := .next (s.advance.setDT (s.readV x))

/-- Fx18: `ST <- V[x]` (R226). -/
def execLdStVx (x : Reg) (s : State) : Result := .next (s.advance.setST (s.readV x))

/-- The buzzer is on exactly when `ST ≠ 0` (R222). -/
def buzzing (s : State) : Bool := s.ST != 0

/-- The tick taken from this state is the buzz-stop edge: it takes `ST` from 1 to 0 (R223). -/
def buzzStops (s : State) : Bool := s.ST == 1

end Sys2Proof.Machine
end

