-- ==== Sys2Proof/Machine/Cycle.lean ====
section
/-! DEFINITION. The interpreter's move `step()` (spec/40_execution_cycle.md R100 to R106): fetch, decode,
execute, the poll of a key wait, and what `step()` returns. -/

namespace Sys2Proof.Machine

/-- Fetch: the two bytes at `[pc, pc+1]` big-endian, or `OutOfBounds` (R104, R56). -/
def fetch (s : State) : Except Fault Word :=
  match memRead s s.pc.toNat with
  | .error e => .error e
  | .ok hi =>
    match memRead s (s.pc.toNat + 1) with
    | .error e => .error e
    | .ok lo => .ok (wordOfBytes hi lo)

/-- Fetch, decode, execute (R103); the checks come in this order (60_exceptions.md R246). -/
def fetchDecodeExecute (s : State) : Result :=
  attempt s (fetch s) fun word =>
    match decode word with
    | .ok i => exec i s
    | .error _ => raise (.unknownOpcode word s.pc) s

/-- `step()` (R100): by the status, repeat the stored error and change nothing (R101), poll the key wait
(R102), or fetch, decode and execute (R103). -/
def interpreterStep (s : State) : Result :=
  match s.status with
  | .faulted _ => .next s
  | .awaitingKey x sample => .next (pollKeyWait x sample s)
  | .running => fetchDecodeExecute s

/-- What a call of `step()` from this state returns: `none` for `Ok(())`, `some e` for `Err(e)` (R100,
R111). The error is the one that the state after the step holds (R101, R243). -/
def stepResult (s : State) : Option Fault :=
  match interpreterStep s with
  | .next t =>
    match t.status with
    | .faulted e => some e
    | _ => none
  | .fault e => some e
  | .refused _ => none

end Sys2Proof.Machine
end

