-- ==== Sys2Proof/Machine/HostMoves.lean ====
section
/-! DEFINITION. The moves of the timer agent and of the host (spec/40_execution_cycle.md R120 to R123,
spec/45_input.md R215, spec/70_reset_and_hazards.md R270) and what the host reads. -/

namespace Sys2Proof.Machine

/-- `reset()`: the reset state from any state (R270, R43). The parameters are not changed (R270). The model's
own fields go on: the next draw is a fresh byte, and the caller's moves still come (log entry 27). -/
def resetMachine (s : State) : State :=
  ((State.initial s.config).setDraws s.draws).setSchedule s.schedule

/-- `load(bytes)`: the image at 0x200 on, nothing else; an image of more than 3584 bytes changes nothing
(R121). -/
def loadImage (image : List Byte) (s : State) : State :=
  if imageFits image then s.setMem (Memory.writeAll s.config 0x200 image s.mem) else s

/-- What `load(bytes)` returns to the host: `true` for success, `false` for its `OutOfBounds`, which does
not fault the interpreter (R121). -/
def loadResult (image : List Byte) : Bool := imageFits image

/-- `set_key(k, p)`: `keys[k] <- p`; an index above 15 is refused (R215). -/
def pressKey (k : Nat) (pressed : Bool) (s : State) : Result :=
  if h : k < 16 then .next (s.setKeys (s.keys.set k pressed h)) else .refused (.keyIndexOutOfRange k)

/-- One move of an agent (00_scope.md R6, 20_memory.md R60). -/
def applyMove (m : Move) (s : State) : Result :=
  match m with
  | .step => interpreterStep s
  | .tick => .next (tickTimers s)
  | .reset => .next (resetMachine s)
  | .load image => .next (loadImage image s)
  | .setKey k pressed => pressKey k pressed s

/-- The next move of the interleaving: the first move of the schedule, or a call of `step()` when the
caller has no other move in it (R60). -/
def nextMove (s : State) : Result :=
  match s.schedule with
  | [] => interpreterStep s
  | m :: rest => applyMove m (s.setSchedule rest)

/-- The display snapshot, row-major: the pixel at column `c`, row `r` is at `r * 64 + c` (R122, R31). -/
def snapshot (s : State) : Vector Bool 2048 :=
  Vector.ofFn fun i : Fin 2048 =>
    s.disp.pixel ⟨i.val % 64, Nat.mod_lt _ (by decide)⟩ ⟨i.val / 64, by omega⟩

/-- The sound-timer read (46_timers.md R222). -/
def soundTimer (s : State) : Byte := s.ST

/-- The status read (10_state.md R41). -/
def readStatus (s : State) : Status := s.status

/-- The number of an error kind (60_exceptions.md R240). -/
def faultCode : Fault → Nat
  | .stackOverflow _ => 1
  | .stackUnderflow _ => 2
  | .outOfBounds _ _ => 3
  | .unknownOpcode _ _ => 4

/-- A `pc` from which a word can be fetched: the given one, or the load address when it is not one. -/
def fetchablePc (pc : Word) : Word := if pc.toNat + 1 < 4096 then pc else 0x0200

/-- The state in which the next move fetches and runs `word` (log entry 32). -/
def placeWord (word : Word) (s : State) : State :=
  let here := ((s.setPc (fetchablePc s.pc)).setStatus .running).setSchedule []
  here.setMem (Memory.writeAll s.config (fetchablePc s.pc).toNat (bytesOfWord word) s.mem)

end Sys2Proof.Machine
end

