-- ==== Sys2Proof/Machine/Step.lean ====
section
/-! DEFINITION. The step of the machine: one atomic move of the interleaving (spec/20_memory.md R60). -/

namespace Sys2Proof.Machine

/-- One move: the caller's next scheduled move, or `step()` of the interpreter when the schedule is empty,
as it is after reset (log entry 2). -/
def step (s : State) : Host.Outcome State Fault Refusal := nextMove s

/-- The state `s` with one instruction word, numbered as the opcode table numbers it, stored where `step`
fetches its next instruction (log entries 1 and 32). -/
def State.withFetchWord (s : State) (nbits w : Nat) : State := placeWord (tableWord nbits w) s

end Sys2Proof.Machine
end

