-- ==== Sys2Proof/Safety.lean ====
section
/-! DEFINITION. What counts as a legal state and as a safe run (spec/10_state.md R25, R27,
spec/20_memory.md R50, spec/70_reset_and_hazards.md R277). -/

namespace Sys2Proof.Machine

/-- The word at addresses `a` and `a + 1`, big-endian (20_memory.md R56). -/
def State.wordAt (s : State) (a : Nat) : Word := wordOfBytes (s.byteAt a) (s.byteAt (a + 1))

/-- The next move is an instruction: the interpreter runs and the caller has no other move first. -/
def State.ready (s : State) : Prop := s.status = .running ∧ s.schedule = []

/-- The sprite of Dxyn covers the pixel at column `c`, row `r`: bit `7 - j` of row `i` is set, and the
pixel is `((Vx + j) mod 64, (Vy + i) mod 32)` (41_display.md R131). -/
def State.spriteCovers (s : State) (x y : Reg) (n : Fin 16) (c : Fin 64) (r : Fin 32) : Prop :=
  ∃ i < n.val, ∃ j < 8, (s.byteAt (s.I.toNat + i)).getLsbD (7 - j) = true ∧
    c.val = ((s.readV x).toNat + j) % 64 ∧ r.val = ((s.readV y).toNat + i) % 32

/-- The call stack holds at most `STACK_CAPACITY` entries (R27). -/
def State.stackBounded (s : State) : Prop := ∀ n, s.config.stackCapacity = some n → s.stack.length ≤ n

/-- Every return address was pushed by a call that was fetched: at most 4096 (R25, R140). -/
def State.returnsBounded (s : State) : Prop := ∀ v ∈ s.stack, v.toNat ≤ 4096

/-- While the interpreter waits, `pc` is at the waiting Fx0A, which was fetched (R24, R213). -/
def State.waitsAtFetched (s : State) : Prop :=
  ∀ x sample, s.status = .awaitingKey x sample → s.pc.toNat + 2 ≤ 4096

/-- The invariant of the machine: `pc` at most 0x10FE (R25), the stack bounded and its entries return
addresses, a wait at a fetched instruction, the memory in its canonical form. -/
structure State.Inv (s : State) : Prop where
  pcBounded      : s.pc.toNat ≤ 0x10FE
  stackBounded   : s.stackBounded
  returnsBounded : s.returnsBounded
  waitsAtFetched : s.waitsAtFetched
  memoryWf       : Memory.wf s.config s.mem

/-- The interpreter is not halted by an error (R244). -/
def State.live (s : State) : Prop := ∀ e, s.status ≠ .faulted e

/-- The runs of the machine from `s`: `reaches s t` when some number of moves takes `s` to `t`. -/
inductive State.reaches : State → State → Prop where
  /-- no move -/
  | refl (s : State) : State.reaches s s
  /-- one more move -/
  | move {s t u : State} (before : State.reaches s t) (last : step t = .next u) : State.reaches s u

/-- A safe run of `k` moves: every move answers a next state and none leaves the interpreter halted. -/
def State.safeFor : Nat → State → Prop
  | 0, s => s.live
  | k + 1, s => s.live ∧ ∃ t, step s = .next t ∧ State.safeFor k t

end Sys2Proof.Machine
end

