-- ==== Sys2Proof/Certificates/Slice0/Obligations.lean ====
section
/-! DEFINITION. The statements for the provers. Each docstring names the rule of spec/ that it formalises;
where a clause rests on one of the spec's own decisions (92_eei_decisions.md) or on a choice of the model, the
docstring says so and names the decision or the log entry. -/

open Sys2Proof Sys2Proof.Machine

/-! ### Display -/

/-- R130: 0x00E0, and no other word, is CLS; it turns all 2048 pixels off, leaves `VF`, raises nothing. -/
def Obligations.ClsTurnsEveryPixelOff : Prop :=
  (∀ w : Word, decode w = .ok .cls ↔ w = 0x00E0) ∧
  ∀ s : State, ∃ t, exec .cls s = .next t ∧ (∀ c r, t.disp.pixel c r = false) ∧
    t.readV 15 = s.readV 15 ∧ t.pc = s.pc + 2 ∧ t.status = s.status

/-- Dxyn (41_display.md): a pixel flips exactly when the sprite covers it, `VF` is 1 exactly when a covered
pixel was on, `n = 0` draws nothing, and nothing else changes. The bit order is the spec's decision D15 (log
entry 10), `n = 0` is D16, the frame is D11 (log entry 14), `x = 15` is D8 (log entry 11). -/
def Obligations.DrwXorsSpriteOntoDisplay : Prop :=
  ∀ (x y : Reg) (n : Fin 16) (s : State), n = 0 ∨ s.I.toNat + n.val ≤ 4096 →
    ∃ t, exec (.drw x y n) s = .next t ∧
      (∀ c r, s.spriteCovers x y n c r → t.disp.pixel c r = !(s.disp.pixel c r)) ∧
      (∀ c r, ¬ s.spriteCovers x y n c r → t.disp.pixel c r = s.disp.pixel c r) ∧
      ((∃ c r, s.spriteCovers x y n c r ∧ s.disp.pixel c r = true) → t.readV 15 = 1) ∧
      ((¬ ∃ c r, s.spriteCovers x y n c r ∧ s.disp.pixel c r = true) → t.readV 15 = 0) ∧
      (∀ r, r ≠ 15 → t.readV r = s.readV r) ∧ (∀ a, t.byteAt a = s.byteAt a) ∧
      t = { s with disp := t.disp, V := t.V, pc := s.pc + 2 }

/-- R134's derived law: a second draw of the same sprite at the same place (the coordinate registers read as
before the first draw) restores every pixel. Which pixels the sprite covers rests on the bit order, the spec's
decision D15 (log entry 10). It sets `VF` to 1 exactly when a covered pixel was OFF before the
first draw, as R131 computes it: R134's words "if the sprite has at least one set bit" hold of a display on
which such a pixel was off (log entry 34). -/
def Obligations.DrwTwiceRestoresDisplay : Prop :=
  ∀ (x y : Reg) (n : Fin 16) (s t u : State), n = 0 ∨ s.I.toNat + n.val ≤ 4096 →
    exec (.drw x y n) s = .next t → t.readV x = s.readV x → t.readV y = s.readV y →
    exec (.drw x y n) t = .next u →
    u.disp = s.disp ∧
      ((∃ c r, s.spriteCovers x y n c r ∧ s.disp.pixel c r = false) → u.readV 15 = 1) ∧
      ((¬ ∃ c r, s.spriteCovers x y n c r ∧ s.disp.pixel c r = false) → u.readV 15 = 0)

/-! ### Memory transfers past the end -/

/-- R136, R193, R194, R195: a range that passes 4095 faults with the lowest unmapped address, and `pc` keeps the
address of the instruction. The record is the spec's decision D30 (log entry 8), the fault entry D4 and D5 (log
entries 5 and 6). Nothing is said of the registers, memory and pixels of the faulted state (R110). -/
def Obligations.MemoryTransferPastEndFaults : Prop :=
  (∀ (x y : Reg) (n : Fin 16) (s : State), n ≠ 0 → 4096 < s.I.toNat + n.val →
    ∃ t, exec (.drw x y n) s = .next t ∧ t.pc = s.pc ∧
      t.status = .faulted (.outOfBounds (max s.I.toNat 4096) s.pc)) ∧
  (∀ (x : Reg) (s : State), 4096 < s.I.toNat + 3 →
    ∃ t, exec (.ldBVx x) s = .next t ∧ t.pc = s.pc ∧
      t.status = .faulted (.outOfBounds (max s.I.toNat 4096) s.pc)) ∧
  (∀ (x : Reg) (s : State), 4096 < s.I.toNat + x.val + 1 →
    (∃ t, exec (.ldMemVx x) s = .next t ∧ t.pc = s.pc ∧
      t.status = .faulted (.outOfBounds (max s.I.toNat 4096) s.pc)) ∧
    (∃ t, exec (.ldVxMem x) s = .next t ∧ t.pc = s.pc ∧
      t.status = .faulted (.outOfBounds (max s.I.toNat 4096) s.pc)))

/-! ### Control transfer -/

/-- 00EE (42_control_flow.md): the top entry goes to `pc` and leaves the stack; on an empty stack,
`StackUnderflow`. The record and the fault entry are D30, D4 and D5 (log entries 5, 6, 8), the frame D11. -/
def Obligations.RetPopsReturnAddress : Prop :=
  (∀ w : Word, decode w = .ok .ret ↔ w = 0x00EE) ∧
  (∀ (s : State) (rest : List Word) (v : Word), s.stack = rest ++ [v] →
    exec .ret s = .next { s with stack := rest, pc := v }) ∧
  (∀ s : State, s.stack = [] →
    ∃ t, exec .ret s = .next t ∧ t.pc = s.pc ∧ t.status = .faulted (.stackUnderflow s.pc))

/-- 2nnn (42_control_flow.md): below capacity the address of the next instruction is pushed and `pc` is `nnn`; at
capacity, `StackOverflow`; unbounded, never. The record and the fault entry are D30, D4 and D5 (log entries 5,
6, 8), the frame D11. -/
def Obligations.CallPushesReturnAddress : Prop :=
  (∀ (nnn : Addr12) (s : State), s.config.stackCapacity ≠ some s.stack.length →
    ∃ t, exec (.call nnn) s = .next t ∧ t.stack = s.stack ++ [s.pc + 2] ∧ t.pc.toNat = nnn.toNat ∧
      t = { s with stack := t.stack, pc := t.pc }) ∧
  (∀ (nnn : Addr12) (s : State), s.config.stackCapacity = some s.stack.length →
    ∃ t, exec (.call nnn) s = .next t ∧ t.pc = s.pc ∧ t.status = .faulted (.stackOverflow s.pc)) ∧
  (∀ (nnn : Addr12) (s : State), s.config.stackCapacity = none →
    ∃ t, exec (.call nnn) s = .next t ∧ t.status = s.status)

/-- R141: 0x1nnn sets `pc` to `nnn`, writes no flag and raises nothing; a target of 0xFFF makes the next fetch
raise `OutOfBounds(4096)`, and a jump to itself changes nothing. -/
def Obligations.JpSetsPc : Prop :=
  (∀ nnn : Addr12, decode (wordNnn 0x1 nnn) = .ok (.jp nnn)) ∧
  ∀ (nnn : Addr12) (s : State), ∃ t, exec (.jp nnn) s = .next t ∧ t.pc.toNat = nnn.toNat ∧
    t.readV 15 = s.readV 15 ∧ t.status = s.status ∧
    (nnn = 0xFFF → fetch t = .error (.outOfBounds 4096 0xFFF)) ∧
    (nnn.toNat = s.pc.toNat → t = s)

/-- R143 and R144: the skips on an immediate, their encodings, no flag, no error. -/
def Obligations.SkipImmediateComparesRegister : Prop :=
  (∀ (x : Reg) (kk : Byte), decode (wordXkk 0x3 x kk) = .ok (.seImm x kk) ∧
    decode (wordXkk 0x4 x kk) = .ok (.sneImm x kk)) ∧
  ∀ (x : Reg) (kk : Byte) (s : State),
    (∃ t, exec (.seImm x kk) s = .next t ∧ t.pc = (if s.readV x = kk then s.pc + 4 else s.pc + 2) ∧
      t.readV 15 = s.readV 15 ∧ t.status = s.status) ∧
    (∃ t, exec (.sneImm x kk) s = .next t ∧ t.pc = (if s.readV x = kk then s.pc + 2 else s.pc + 4) ∧
      t.readV 15 = s.readV 15 ∧ t.status = s.status)

/-- R145 and R146: the skips on two registers; a low nibble other than 0 is unknown; no flag, no error. -/
def Obligations.SkipRegistersCompare : Prop :=
  (∀ (x y n : Fin 16), decode (wordXyn 0x5 x y n) =
      (if n = 0 then .ok (.seReg x y) else .error (.unknownOpcode (wordXyn 0x5 x y n))) ∧
    decode (wordXyn 0x9 x y n) =
      (if n = 0 then .ok (.sneReg x y) else .error (.unknownOpcode (wordXyn 0x9 x y n)))) ∧
  ∀ (x y : Reg) (s : State),
    (∃ t, exec (.seReg x y) s = .next t ∧
      t.pc = (if s.readV x = s.readV y then s.pc + 4 else s.pc + 2) ∧
      t.readV 15 = s.readV 15 ∧ t.status = s.status) ∧
    (∃ t, exec (.sneReg x y) s = .next t ∧
      t.pc = (if s.readV x = s.readV y then s.pc + 2 else s.pc + 4) ∧
      t.readV 15 = s.readV 15 ∧ t.status = s.status)

/-- Bnnn (42_control_flow.md): the exact, unwrapped sum of `nnn` and `V0`, or of `nnn` and `V[nnn[11:8]]` under
`Vx_xnn`. The absence of a mask is D7 (log entry 17), the `Vx_xnn` form D10 (log entry 13), the frame D11. -/
def Obligations.JpV0AddsExactly : Prop :=
  ∀ (nnn : Addr12) (s : State), ∃ t, exec (.jpV0 nnn) s = .next t ∧
    (s.config.jumpOffset = .v0Addr → t.pc.toNat = nnn.toNat + (s.readV 0).toNat) ∧
    (s.config.jumpOffset = .vxXnn → ∀ x : Reg, x.val = nnn.toNat / 256 →
      t.pc.toNat = nnn.toNat + (s.readV x).toNat) ∧
    t = { s with pc := t.pc }

/-! ### Register loads and arithmetic -/

/-- R160: 0x6xkk loads `kk` into `V[x]`, `VF` only when `x = 15`, no error. -/
def Obligations.LdImmLoadsImmediate : Prop :=
  (∀ (x : Reg) (kk : Byte), decode (wordXkk 0x6 x kk) = .ok (.ldImm x kk)) ∧
  ∀ (x : Reg) (kk : Byte) (s : State), ∃ t, exec (.ldImm x kk) s = .next t ∧ t.readV x = kk ∧
    (x ≠ 15 → t.readV 15 = s.readV 15) ∧ t.pc = s.pc + 2 ∧ t.status = s.status

/-- R161: 0x7xkk adds modulo 256 and records no carry; `VF` is written only when `x = 15`. -/
def Obligations.AddImmWrapsWithoutFlag : Prop :=
  (∀ (x : Reg) (kk : Byte), decode (wordXkk 0x7 x kk) = .ok (.addImm x kk)) ∧
  ∀ (x : Reg) (kk : Byte) (s : State), ∃ t, exec (.addImm x kk) s = .next t ∧
    (t.readV x).toNat = ((s.readV x).toNat + kk.toNat) % 256 ∧
    (x ≠ 15 → t.readV 15 = s.readV 15) ∧ t.pc = s.pc + 2 ∧ t.status = s.status

/-- R162: 0x8xy0 moves `V[y]` to `V[x]`; `x = y` changes no register; no flag, no error. -/
def Obligations.LdRegMovesRegister : Prop :=
  (∀ (x y : Reg), decode (wordXyn 0x8 x y 0) = .ok (.ldReg x y)) ∧
  ∀ (x y : Reg) (s : State), ∃ t, exec (.ldReg x y) s = .next t ∧ t.readV x = s.readV y ∧
    (x = y → ∀ r, t.readV r = s.readV r) ∧
    (x ≠ 15 → t.readV 15 = s.readV 15) ∧ t.pc = s.pc + 2 ∧ t.status = s.status

/-- 8xy1, 8xy2, 8xy3 (43_alu.md), bit by bit; no other register, `VF` among them, changes: that is the spec's
decision D11 (log entry 14). -/
def Obligations.LogicOpsActBitwise : Prop :=
  ∀ (x y : Reg) (s : State),
    (∃ t, exec (.or x y) s = .next t ∧
      (∀ k, (t.readV x).getLsbD k = ((s.readV x).getLsbD k || (s.readV y).getLsbD k)) ∧
      (∀ r, r ≠ x → t.readV r = s.readV r) ∧ t = { s with V := t.V, pc := s.pc + 2 }) ∧
    (∃ t, exec (.and x y) s = .next t ∧
      (∀ k, (t.readV x).getLsbD k = ((s.readV x).getLsbD k && (s.readV y).getLsbD k)) ∧
      (∀ r, r ≠ x → t.readV r = s.readV r) ∧ t = { s with V := t.V, pc := s.pc + 2 }) ∧
    (∃ t, exec (.xor x y) s = .next t ∧
      (∀ k, (t.readV x).getLsbD k = ((s.readV x).getLsbD k ^^ (s.readV y).getLsbD k)) ∧
      (∀ r, r ≠ x → t.readV r = s.readV r) ∧ t = { s with V := t.V, pc := s.pc + 2 })

/-- 8xy4 (43_alu.md): the sum modulo 256 and the carry, which is what `VF` holds after it even when `x = 15`
(D8, log entry 11); the frame is D11. -/
def Obligations.AddRegSumAndCarry : Prop :=
  ∀ (x y : Reg) (s : State), ∃ t, exec (.addReg x y) s = .next t ∧
    (x ≠ 15 → (t.readV x).toNat = ((s.readV x).toNat + (s.readV y).toNat) % 256) ∧
    (t.readV 15).toNat = ((s.readV x).toNat + (s.readV y).toNat) / 256 ∧
    (∀ r, r ≠ x → r ≠ 15 → t.readV r = s.readV r) ∧ t = { s with V := t.V, pc := s.pc + 2 }

/-- 8xy5 and 8xy7 (43_alu.md): the difference modulo 256 and the no-borrow flag, which is what `VF` holds after
it even when `x = 15` (D8, log entry 11); the frame is D11. -/
def Obligations.SubtractionsAndNoBorrow : Prop :=
  ∀ (x y : Reg) (s : State),
    (∃ t, exec (.sub x y) s = .next t ∧
      (x ≠ 15 → (t.readV x).toNat = ((s.readV x).toNat + 256 - (s.readV y).toNat) % 256) ∧
      t.readV 15 = (if (s.readV y).toNat ≤ (s.readV x).toNat then 1 else 0) ∧
      (∀ r, r ≠ x → r ≠ 15 → t.readV r = s.readV r) ∧ t = { s with V := t.V, pc := s.pc + 2 }) ∧
    (∃ t, exec (.subn x y) s = .next t ∧
      (x ≠ 15 → (t.readV x).toNat = ((s.readV y).toNat + 256 - (s.readV x).toNat) % 256) ∧
      t.readV 15 = (if (s.readV x).toNat ≤ (s.readV y).toNat then 1 else 0) ∧
      (∀ r, r ≠ x → r ≠ 15 → t.readV r = s.readV r) ∧ t = { s with V := t.V, pc := s.pc + 2 })

/-- 8xy6 and 8xyE (43_alu.md) under both values of `SHIFT_SOURCE`: with `z` the register shifted and `b` the bit
shifted out, `VF` gets `b` first, and `V[x]` gets `V[z]` shifted as it stands then. The flag-first order is D8
(log entry 11), the `Vy` form D9 (log entry 12), the frame D11. -/
def Obligations.ShiftsWriteFlagFirst : Prop :=
  ∀ (x y z : Reg) (s : State), (s.config.shiftSource = .vx → z = x) → (s.config.shiftSource = .vy → z = y) →
    (∃ t, exec (.shr x y) s = .next t ∧
      (z ≠ 15 → (t.readV x).toNat = (s.readV z).toNat / 2) ∧ (z = 15 → t.readV x = 0) ∧
      (x ≠ 15 → (t.readV 15).toNat = (s.readV z).toNat % 2) ∧
      (∀ r, r ≠ x → r ≠ 15 → t.readV r = s.readV r) ∧ t = { s with V := t.V, pc := s.pc + 2 }) ∧
    (∃ t, exec (.shl x y) s = .next t ∧
      (z ≠ 15 → (t.readV x).toNat = (s.readV z).toNat * 2 % 256) ∧
      (z = 15 → (t.readV x).toNat = (s.readV z).toNat / 128 * 2) ∧
      (x ≠ 15 → (t.readV 15).toNat = (s.readV z).toNat / 128) ∧
      (∀ r, r ≠ x → r ≠ 15 → t.readV r = s.readV r) ∧ t = { s with V := t.V, pc := s.pc + 2 })

/-- Cxkk (43_alu.md): `V[x]` gets the free byte of this draw masked with `kk`, and the next draw is another free
byte. The draw is the spec's decision D18; its form, a constant without a value applied to the model's counter,
is the model's choice (log entry 4). The frame is D11. -/
def Obligations.RndMasksFreeByte : Prop :=
  ∀ (x : Reg) (kk : Byte) (s : State), ∃ t, exec (.rnd x kk) s = .next t ∧
    (∀ k, (t.readV x).getLsbD k = ((Config.randomByte s.draws).getLsbD k && kk.getLsbD k)) ∧
    (∀ r, r ≠ x → t.readV r = s.readV r) ∧ t = { s with V := t.V, pc := s.pc + 2, draws := s.draws + 1 }

/-! ### Address register and memory -/

/-- R190: 0xAnnn loads any `nnn` into `I`; no flag, no error. -/
def Obligations.LdILoadsAddress : Prop :=
  (∀ nnn : Addr12, decode (wordNnn 0xA nnn) = .ok (.ldI nnn)) ∧
  ∀ (nnn : Addr12) (s : State), ∃ t, exec (.ldI nnn) s = .next t ∧ t.I.toNat = nnn.toNat ∧
    t.readV 15 = s.readV 15 ∧ t.pc = s.pc + 2 ∧ t.status = s.status

/-- Fx1E (44_index_memory.md): `I` plus `V[x]` modulo 65536, not modulo 4096; nothing else, `VF` among it, is
written: D11 (log entry 14). -/
def Obligations.AddIVxWrapsAtSixteenBits : Prop :=
  ∀ (x : Reg) (s : State), ∃ t, exec (.addIVx x) s = .next t ∧
    t.I.toNat = (s.I.toNat + (s.readV x).toNat) % 65536 ∧ t = { s with I := t.I, pc := s.pc + 2 }

/-- Fx29 (44_index_memory.md): `I` is 5 times the low nibble of `V[x]`. That glyph `d` is at `5d` is D14, the
frame D11. -/
def Obligations.LdFVxPointsAtGlyph : Prop :=
  ∀ (x : Reg) (s : State), ∃ t, exec (.ldFVx x) s = .next t ∧
    t.I.toNat = 5 * ((s.readV x).toNat % 16) ∧ t = { s with I := t.I, pc := s.pc + 2 }

/-- Fx33 (44_index_memory.md): the digits of `V[x]` at `I`, `I+1`, `I+2`, every other byte and all else as
before (D11). -/
def Obligations.LdBVxStoresDecimalDigits : Prop :=
  ∀ (x : Reg) (s : State), baseAddress s + 3 ≤ 4096 → ∃ t, exec (.ldBVx x) s = .next t ∧
    (t.byteAt (baseAddress s)).toNat = (s.readV x).toNat / 100 ∧
    (t.byteAt (baseAddress s + 1)).toNat = (s.readV x).toNat / 10 % 10 ∧
    (t.byteAt (baseAddress s + 2)).toNat = (s.readV x).toNat % 10 ∧
    (∀ a, a < baseAddress s ∨ baseAddress s + 3 ≤ a → t.byteAt a = s.byteAt a) ∧
    t = { s with mem := t.mem, pc := s.pc + 2 }

/-- Fx55 (44_index_memory.md): `V[0]` to `V[x]` at `I` to `I + x`, every other byte and all else, `I` among it,
as before (D11). The font is not protected (D20). -/
def Obligations.LdMemVxStoresRegisters : Prop :=
  ∀ (x : Reg) (s : State), baseAddress s + x.val + 1 ≤ 4096 → ∃ t, exec (.ldMemVx x) s = .next t ∧
    (∀ r : Reg, r ≤ x → t.byteAt (baseAddress s + r.val) = s.readV r) ∧
    (∀ a, a < baseAddress s ∨ baseAddress s + x.val + 1 ≤ a → t.byteAt a = s.byteAt a) ∧
    t = { s with mem := t.mem, pc := s.pc + 2 }

/-- Fx65 (44_index_memory.md): `V[0]` to `V[x]` from `I` to `I + x`, every other register, every byte and all
else, `I` among it, as before (D11). -/
def Obligations.LdVxMemLoadsRegisters : Prop :=
  ∀ (x : Reg) (s : State), baseAddress s + x.val + 1 ≤ 4096 → ∃ t, exec (.ldVxMem x) s = .next t ∧
    (∀ r : Reg, r ≤ x → t.readV r = s.byteAt (baseAddress s + r.val)) ∧
    (∀ r : Reg, x < r → t.readV r = s.readV r) ∧ (∀ a, t.byteAt a = s.byteAt a) ∧
    t = { s with V := t.V, pc := s.pc + 2 }

/-! ### Input -/

/-- Ex9E and ExA1 (45_input.md) with a key index of 0 to 15: the skip is taken when the key is pressed,
respectively not pressed; only the pc changes (D11). -/
def Obligations.KeySkipsTestTheKey : Prop :=
  ∀ (x k : Reg) (s : State), (s.readV x).toNat = k.val →
    exec (.skp x) s = .next { s with pc := if s.keys.get k = true then s.pc + 4 else s.pc + 2 } ∧
    exec (.sknp x) s = .next { s with pc := if s.keys.get k = true then s.pc + 2 else s.pc + 4 }

/-- Ex9E and ExA1 with a key index above 15 fault with that index: the spec's decision D12 (log entry 15). -/
def Obligations.KeyIndexAboveFifteenFaults : Prop :=
  ∀ (x : Reg) (s : State), 16 ≤ (s.readV x).toNat →
    (∃ t, exec (.skp x) s = .next t ∧ t.pc = s.pc ∧
      t.status = .faulted (.outOfBounds (s.readV x).toNat s.pc)) ∧
    (∃ t, exec (.sknp x) s = .next t ∧ t.pc = s.pc ∧
      t.status = .faulted (.outOfBounds (s.readV x).toNat s.pc))

/-- Fx0A (45_input.md) suspends: `pc` stays at the Fx0A, the sample is the key vector now, no register, no byte
and nothing else is written. The mechanism is the spec's decision D13 (log entry 16). -/
def Obligations.LdVxKSuspends : Prop :=
  (∀ x : Reg, decode (wordXkk 0xF x 0x0A) = .ok (.ldVxK x)) ∧
  ∀ (x : Reg) (s : State), ∃ t, exec (.ldVxK x) s = .next t ∧ t.pc = s.pc ∧
    t.status = .awaitingKey x s.keys ∧ (∀ r, t.readV r = s.readV r) ∧ (∀ a, t.byteAt a = s.byteAt a) ∧
    t = { s with status := t.status }

/-- The poll of a key wait (45_input.md R214, the spec's decision D13, log entry 16): a key pressed now and not
in the sample ends the wait with the LOWEST pressed key in `V[x]`; otherwise only the sample changes. -/
def Obligations.KeyWaitPoll : Prop :=
  ∀ (x : Reg) (sample : Keys) (s : State), s.status = .awaitingKey x sample → s.schedule = [] →
    ((∃ j : Reg, s.keys.get j = true ∧ sample.get j = false) →
      ∃ (k : Reg) (t : State), step s = .next t ∧ s.keys.get k = true ∧
        (∀ j : Reg, j < k → s.keys.get j = false) ∧ (t.readV x).toNat = k.val ∧
        (∀ r, r ≠ x → t.readV r = s.readV r) ∧
        t = { s with V := t.V, pc := s.pc + 2, status := .running }) ∧
    ((¬ ∃ j : Reg, s.keys.get j = true ∧ sample.get j = false) →
      step s = .next { s with status := .awaitingKey x s.keys })

/-! ### Timers -/

/-- R224: 0xFx07 reads the delay timer into `V[x]`; no flag, no error. -/
def Obligations.LdVxDtReadsDelayTimer : Prop :=
  (∀ x : Reg, decode (wordXkk 0xF x 0x07) = .ok (.ldVxDt x)) ∧
  ∀ (x : Reg) (s : State), ∃ t, exec (.ldVxDt x) s = .next t ∧ t.readV x = s.DT ∧
    (x ≠ 15 → t.readV 15 = s.readV 15) ∧ t.pc = s.pc + 2 ∧ t.status = s.status

/-- R225: 0xFx15 sets the delay timer; 0 leaves it stopped at 0 under ticks; no flag, no error. -/
def Obligations.LdDtVxSetsDelayTimer : Prop :=
  (∀ x : Reg, decode (wordXkk 0xF x 0x15) = .ok (.ldDtVx x)) ∧
  ∀ (x : Reg) (s : State), ∃ t, exec (.ldDtVx x) s = .next t ∧ t.DT = s.readV x ∧
    (s.readV x = 0 → (tickTimers t).DT = 0) ∧
    t.readV 15 = s.readV 15 ∧ t.pc = s.pc + 2 ∧ t.status = s.status

/-- R226: 0xFx18 sets the sound timer; 0 silences the buzzer at once, 1 sounds for one tick; no flag, no
error. -/
def Obligations.LdStVxSetsSoundTimer : Prop :=
  (∀ x : Reg, decode (wordXkk 0xF x 0x18) = .ok (.ldStVx x)) ∧
  ∀ (x : Reg) (s : State), ∃ t, exec (.ldStVx x) s = .next t ∧ t.ST = s.readV x ∧
    (s.readV x = 0 → buzzing t = false) ∧
    (s.readV x = 1 → buzzing t = true ∧ buzzing (tickTimers t) = false) ∧
    t.readV 15 = s.readV 15 ∧ t.pc = s.pc + 2 ∧ t.status = s.status

/-- R220 and R221: a tick takes 1 from each counter that is above 0, both in the same move, and reads and writes
nothing else. -/
def Obligations.TickCountsBothTimersDown : Prop :=
  ∀ (s : State) (rest : List Move), s.schedule = .tick :: rest → ∃ t, step s = .next t ∧
    t.DT.toNat = s.DT.toNat - 1 ∧ t.ST.toNat = s.ST.toNat - 1 ∧
    t = { s with DT := t.DT, ST := t.ST, schedule := rest }

/-! ### The operations -/

/-- R28 and R29: `Push` appends, or fails exactly at capacity; `Pop` returns the most recent entry, or fails
exactly on the empty stack. -/
def Obligations.PushAndPopAreLastInFirstOut : Prop :=
  (∀ (s : State) (v : Word) (n : Nat), s.config.stackCapacity = some n → s.stack.length = n →
    push s v = .error (.stackOverflow s.pc)) ∧
  (∀ (s : State) (v : Word), (∀ n, s.config.stackCapacity = some n → s.stack.length ≠ n) →
    push s v = .ok (s.stack ++ [v])) ∧
  (∀ s : State, s.stack = [] → pop s = .error (.stackUnderflow s.pc)) ∧
  (∀ (s : State) (v : Word) (l : List Word), push s v = .ok l → pop (s.setStack l) = .ok (v, s.stack))

/-- R51: `MemRead(a, 1)` of any natural number `a` gives the byte, or `OutOfBounds(a)` from 4096 on. -/
def Obligations.MemReadIsRangeChecked : Prop :=
  ∀ (s : State) (a : Nat), (4096 ≤ a → memRead s a = .error (.outOfBounds a s.pc)) ∧
    (a < 4096 → memRead s a = .ok (s.byteAt a))

/-- `MemWrite` (20_memory.md): all the bytes and no other, keeping the canonical form, or `OutOfBounds` with the
lowest unmapped address and no memory at all. The record is D30 (log entry 8), the empty effect D4 (log entry
7). -/
def Obligations.MemWriteAllOrNothing : Prop :=
  ∀ (s : State) (a : Nat) (bytes : List Byte), bytes ≠ [] →
    (4096 < a + bytes.length → memWrite s a bytes = .error (.outOfBounds (max a 4096) s.pc)) ∧
    (a + bytes.length ≤ 4096 → ∃ m, memWrite s a bytes = .ok m ∧
      (∀ i (h : i < bytes.length), (s.setMem m).byteAt (a + i) = bytes[i]) ∧
      (∀ b, b < a ∨ a + bytes.length ≤ b → (s.setMem m).byteAt b = s.byteAt b) ∧
      (Memory.wf s.config s.mem → Memory.wf s.config m))

/-! ### The cycle -/

/-- Fetch (20_memory.md R56, 40_execution_cycle.md R104): big-endian at any `pc`, odd or even (D6, log entry 18),
below 4095; `OutOfBounds(4096)` at 4095, `OutOfBounds(pc)` from 4096 on. -/
def Obligations.FetchIsBigEndianAndRangeChecked : Prop :=
  ∀ s : State,
    (s.pc.toNat < 4095 → ∃ w : Word, fetch s = .ok w ∧
      w.toNat = (s.byteAt s.pc.toNat).toNat * 256 + (s.byteAt (s.pc.toNat + 1)).toNat) ∧
    (s.pc.toNat = 4095 → fetch s = .error (.outOfBounds 4096 s.pc)) ∧
    (4096 ≤ s.pc.toNat → fetch s = .error (.outOfBounds s.pc.toNat s.pc))

/-- R103 in the model's terms: in a ready state (running, no other move scheduled) whose bytes at `pc` decode to
`i`, one step is `exec i` of that very state. Nothing is added around `exec`: each meaning makes the fetch
advance itself (log entry 25). A scheduled `Move.step` is a call of the interpreter's `step()` with that move
taken off the schedule (R60, log entry 2), so it runs the instruction too. `withFetchWord` puts a word there
(log entry 32). -/
def Obligations.StepRunsDecodedInstruction : Prop :=
  (∀ (s : State) (i : Instr), s.ready → s.pc.toNat + 1 < 4096 → decode (s.wordAt s.pc.toNat) = .ok i →
    step s = exec i s) ∧
  (∀ (s : State) (rest : List Move), s.schedule = .step :: rest →
    step s = interpreterStep (s.setSchedule rest) ∧
    ∀ i : Instr, s.status = .running → s.pc.toNat + 1 < 4096 → decode (s.wordAt s.pc.toNat) = .ok i →
      step s = exec i (s.setSchedule rest)) ∧
  (∀ (s : State) (w : Nat) (i : Instr), decodeTableWord 16 w = some i →
    step (s.withFetchWord 16 w) = exec i (s.withFetchWord 16 w))

/-- R104 and R106: a fetch past memory and an unknown word fault, with `pc` at the instruction. The fault entry is
D4 and D5 (log entries 5 and 6), the record of `OutOfBounds` D30 (log entry 8). -/
def Obligations.FetchAndDecodeErrorsFault : Prop :=
  (∀ s : State, s.ready → 4095 ≤ s.pc.toNat → ∃ t, step s = .next t ∧ t.pc = s.pc ∧
    t.status = .faulted (.outOfBounds (max s.pc.toNat 4096) s.pc)) ∧
  (∀ (s : State) (w : Word), s.ready → s.pc.toNat < 4095 → s.wordAt s.pc.toNat = w →
    Word.wellFormed w = false → ∃ t, step s = .next t ∧ t.pc = s.pc ∧
      t.status = .faulted (.unknownOpcode w s.pc))

/-- R101, the spec's decision D5 (log entry 6): in `Faulted(e)` a step changes nothing and returns the same
error, and only the host's `reset()` makes the interpreter run again. -/
def Obligations.FaultedStepRepeatsTheError : Prop :=
  (∀ (s : State) (e : Fault), s.status = .faulted e → stepResult s = some e ∧
    (s.schedule = [] → step s = .next s)) ∧
  (∀ (s t : State) (e : Fault), s.status = .faulted e → step s = .next t → t.status ≠ .faulted e →
    ∃ rest, s.schedule = .reset :: rest)

/-! ### Encoding -/

/-- A few words written out from the patterns of R76: a sanity check of the decoder. -/
def Obligations.WrittenOutWordsDecode : Prop :=
  decode 0b0000000011100000 = .ok .cls ∧ decode 0b0001101010111100 = .ok (.jp 0xABC) ∧
  decode 0b1000000100100100 = .ok (.addReg 1 2) ∧ decode 0b1101000100100101 = .ok (.drw 1 2 5) ∧
  decode 0b1110010110011110 = .ok (.skp 5) ∧ decode 0b1111001001100101 = .ok (.ldVxMem 2) ∧
  decode 0b1111010100010101 = .ok (.ldDtVx 5) ∧
  decode 0b0101000100100001 = .error (.unknownOpcode 0x5121)

/-- Decoding the encoding of any instruction, with every operand at every value, gives the instruction back. -/
def Obligations.DecodeOfEncode : Prop := ∀ i : Instr, decode (encode i) = .ok i

/-- Where a word is an instruction it is that instruction's one encoding. -/
def Obligations.EncodeOfDecode : Prop := ∀ (w : Word) (i : Instr), decode w = .ok i → encode i = w

/-- The decoder agrees with the table of R76 and with the map of R77: a word is known exactly when it has the
fixed bits of a row, it has those of no second row, the instruction is the row's, and the words known are those
that the map in prose lists; every other word is refused under its own name (R78). -/
def Obligations.DecoderAgreesWithOpcodeTable : Prop :=
  (∀ w : Word, (∃ i, decode w = .ok i) ↔ ∃ r ∈ opcodeRows, r.fits w = true) ∧
  (∀ (w : Word) (i : Instr) (r : OpcodeRow), decode w = .ok i → r ∈ opcodeRows → r.fits w = true →
    r.number = i.row) ∧
  (∀ w : Word, Word.wellFormed w = true ↔ ∃ i, decode w = .ok i) ∧
  (∀ w : Word, Word.wellFormed w = false → decode w = .error (.unknownOpcode w))

/-! ### Invariants -/

/-- The state after construction, with any parameters, meets the invariant; the reset state is one. -/
def Obligations.InvHoldsAtReset : Prop := (∀ c : Config, (State.initial c).Inv) ∧ State.reset.Inv

/-- Every move, of the interpreter, the timers or the host, keeps the invariant: `pc` at most 0x10FE (R25), the
stack within its capacity, its entries at most 4096, a wait at a fetched instruction (D13, log entry 16), memory
in the model's canonical form (log entry 26). Of the states a failed step leaves, the clauses on the stack and
the memory rest on the spec's decision D4 (log entry 7). -/
def Obligations.StepKeepsInv : Prop := ∀ s t : State, s.Inv → step s = .next t → t.Inv

/-- R25 over every run: from construction with any parameters, under any schedule, `pc` is at most 0x10FE, so no
operation on it wraps. The schedule is the model's form of the interleaving (log entry 2). -/
def Obligations.PcNeverExceedsBound : Prop :=
  ∀ (c : Config) (ms : List Move) (s : State), State.reaches ((State.initial c).setSchedule ms) s →
    s.pc.toNat ≤ 0x10FE

/-- `step()` always returns (R125): every instruction answers a next state, and so does every move, but for a
`set_key` with an index above 15, which is refused under its name (R215, D28, log entry 22). -/
def Obligations.StepAlwaysAnswers : Prop :=
  (∀ (i : Instr) (s : State), ∃ t, exec i s = .next t) ∧
  ∀ s : State, (∃ t, step s = .next t) ∨
    (∃ k pressed rest, s.schedule = .setKey k pressed :: rest ∧ 16 ≤ k ∧
      step s = .refused (.keyIndexOutOfRange k))

/-! ### Whole-machine rules -/

/-- No instruction writes the key vector (10_state.md R32, D21, log entry 30), the parameters or the caller's
schedule, and an instruction that does not fault or wait leaves the interpreter running. -/
def Obligations.InstructionsLeaveHostStateAlone : Prop :=
  ∀ (i : Instr) (s t : State), exec i s = .next t →
    t.keys = s.keys ∧ t.config = s.config ∧ t.schedule = s.schedule ∧
    (t.status = s.status ∨ (∃ e, t.status = .faulted e) ∨ (∃ x, i = .ldVxK x ∧ t.status = .awaitingKey x s.keys))

/-- Only 00E0, Dxyn and `reset()` write the display (41_display.md R137): a move that changes it is the host's
`reset()`, or a step of the running interpreter, scheduled or not, that fetches a CLS or DRW word. Of the states
a failed step leaves, it rests on the spec's decision D4 (log entry 7). What the renderer reads, the snapshot, is
the buffer row by row. -/
def Obligations.DisplayHasThreeWriters : Prop :=
  (∀ s t : State, step s = .next t → t.disp ≠ s.disp →
    (∃ rest, s.schedule = .reset :: rest) ∨
    ((s.schedule = [] ∨ ∃ rest, s.schedule = .step :: rest) ∧ s.status = .running ∧ s.pc.toNat + 1 < 4096 ∧
      ∃ i, decode (s.wordAt s.pc.toNat) = .ok i ∧ (i = .cls ∨ ∃ x y n, i = .drw x y n))) ∧
  (∀ (s : State) (c : Fin 64) (r : Fin 32) (k : Fin 2048), k.val = r.val * 64 + c.val →
    (snapshot s).get k = s.disp.pixel c r)

/-- Which instructions may change which state (40_execution_cycle.md R109, the spec's decision D11, log entry
14): the stack, `I`, the timers, memory, the draws. Of a next state that is faulted, the clauses on the stack and
the memory rest on D4 (log entry 7). -/
def Obligations.EachStateHasItsWriters : Prop :=
  ∀ (i : Instr) (s t : State), exec i s = .next t →
    (t.stack ≠ s.stack → i = .ret ∨ ∃ nnn, i = .call nnn) ∧
    (t.I ≠ s.I → (∃ nnn, i = .ldI nnn) ∨ (∃ x, i = .addIVx x) ∨ (∃ x, i = .ldFVx x)) ∧
    (t.DT ≠ s.DT → ∃ x, i = .ldDtVx x) ∧
    (t.ST ≠ s.ST → ∃ x, i = .ldStVx x) ∧
    ((∃ a, t.byteAt a ≠ s.byteAt a) → (∃ x, i = .ldBVx x) ∨ (∃ x, i = .ldMemVx x)) ∧
    (t.draws ≠ s.draws → ∃ x kk, i = .rnd x kk)

/-- R109's consequence (D11, log entry 14): an instruction that changes a register `r` is a register-file writer
that names `r` as its `x`, a block load that reaches it, or one of the six flag writers with `r = VF`. Of a next state
that is faulted it rests on D4 (log entry 7). -/
def Obligations.RegisterWriters : Prop :=
  ∀ (i : Instr) (s t : State) (r : Reg), exec i s = .next t → t.readV r ≠ s.readV r →
    (∃ kk, i = .ldImm r kk) ∨ (∃ kk, i = .addImm r kk) ∨ (∃ kk, i = .rnd r kk) ∨ i = .ldVxDt r ∨
    (∃ y, i = .ldReg r y ∨ i = .or r y ∨ i = .and r y ∨ i = .xor r y ∨ i = .addReg r y ∨ i = .sub r y ∨
      i = .subn r y ∨ i = .shr r y ∨ i = .shl r y) ∨
    (∃ x, r ≤ x ∧ i = .ldVxMem x) ∨
    (r = 15 ∧ ((∃ x y, i = .addReg x y ∨ i = .sub x y ∨ i = .subn x y ∨ i = .shr x y ∨ i = .shl x y) ∨
      ∃ x y n, i = .drw x y n))

/-- A tick and an instruction that names no timer commute (20_memory.md R60, 70_reset_and_hazards.md R278): the
order of the two moves makes no difference, whatever the instruction does, a fault included. Of the faulted
states, which it equates whole, it rests on the spec's decision D4 (log entry 7). -/
def Obligations.TicksCommuteWithInstructions : Prop :=
  ∀ (i : Instr) (s t : State), (∀ x, i ≠ .ldVxDt x) → (∀ x, i ≠ .ldDtVx x) → (∀ x, i ≠ .ldStVx x) →
    exec i s = .next t → exec i (tickTimers s) = .next (tickTimers t)

/-- No instruction reads `ST` (10_state.md R30): two states that differ only in `ST` go to states that differ
only in `ST`. Of the faulted states, which it equates whole, it rests on the spec's decision D4 (log entry 7). -/
def Obligations.SoundTimerIsUnread : Prop :=
  ∀ (i : Instr) (s t : State) (v : Byte), exec i s = .next t →
    ∃ t', exec i (s.setST v) = .next t' ∧ t'.setST 0 = t.setST 0

/-! ### Host moves -/

/-- `reset()` (70_reset_and_hazards.md R270, 10_state.md R43) from any state, whatever its status: every field at
its reset value, the program gone, the parameters kept. That the display clears is D19 (log entry 19); that the
model's own fields `draws` and `schedule` go on is the model's choice (log entry 27). -/
def Obligations.ResetRestoresResetState : Prop :=
  ∀ (s : State) (rest : List Move), s.schedule = .reset :: rest → ∃ t, step s = .next t ∧
    (∀ a (h : a < 80), t.byteAt a = s.config.font[a]) ∧ (∀ a, 80 ≤ a → t.byteAt a = 0) ∧
    (∀ r, t.readV r = 0) ∧ t.I = 0 ∧ t.pc = 0x200 ∧ t.stack = [] ∧ t.DT = 0 ∧ t.ST = 0 ∧
    (∀ k, t.keys.get k = false) ∧ (∀ c r, t.disp.pixel c r = false) ∧ t.status = .running ∧
    t.config = s.config ∧ t.draws = s.draws ∧ t.schedule = rest

/-- `load(bytes)` (40_execution_cycle.md R121, D26, log entry 21): an image of at most 3584 bytes at 0x200 on and
nothing else; a longer one fails to the host and changes nothing. -/
def Obligations.LoadWritesTheImageOnly : Prop :=
  ∀ (s : State) (image : List Byte) (rest : List Move), s.schedule = .load image :: rest →
    (image.length ≤ 3584 → loadResult image = true ∧ ∃ t, step s = .next t ∧
      (∀ j (h : j < image.length), t.byteAt (0x200 + j) = image[j]) ∧
      (∀ a, a < 0x200 ∨ 0x200 + image.length ≤ a → t.byteAt a = s.byteAt a) ∧
      t = { s with mem := t.mem, schedule := rest }) ∧
    (3584 < image.length → loadResult image = false ∧ step s = .next { s with schedule := rest })

/-- `set_key(k, p)` (45_input.md R215): one key and nothing else, not even the end of a key wait; an index above 15
is refused (D28, log entry 22). -/
def Obligations.SetKeyWritesOneKey : Prop :=
  ∀ (s : State) (k : Nat) (p : Bool) (rest : List Move), s.schedule = .setKey k p :: rest →
    (∀ h : k < 16, ∃ t, step s = .next t ∧ t.keys.get ⟨k, h⟩ = p ∧
      (∀ j : Reg, j.val ≠ k → t.keys.get j = s.keys.get j) ∧
      t = { s with keys := t.keys, schedule := rest }) ∧
    (16 ≤ k → step s = .refused (.keyIndexOutOfRange k))

/-- Self-modifying code (20_memory.md R63): the bytes that Fx55 stores are the instruction that a later fetch at
their address reads, with nothing in between. -/
def Obligations.StoredCodeIsFetched : Prop :=
  ∀ (x lo hi : Reg) (s t : State) (target : Word), baseAddress s + x.val + 1 ≤ 4096 →
    exec (.ldMemVx x) s = .next t → hi.val + 1 = lo.val → lo ≤ x → target.toNat = baseAddress s + hi.val →
    fetch (t.setPc target) = .ok (wordOfBytes (s.readV hi) (s.readV lo))

/-! ### Frames of the instructions whose results are stated above by rule -/

/-- The frame (40_execution_cycle.md R109, D11, log entry 14) of the instructions of one register destination,
6xkk, 7xkk, 8xy0 and Fx07, and of the skips and the jump, which have none: every other register and every byte
of memory is as before, and so is everything but the pc. -/
def Obligations.RegisterAndSkipFrames : Prop :=
  (∀ (i : Instr) (x : Reg) (s t : State),
    (∃ kk, i = .ldImm x kk) ∨ (∃ kk, i = .addImm x kk) ∨ (∃ y, i = .ldReg x y) ∨ i = .ldVxDt x →
    exec i s = .next t → (∀ r, r ≠ x → t.readV r = s.readV r) ∧ (∀ a, t.byteAt a = s.byteAt a) ∧
      t = { s with V := t.V, pc := s.pc + 2 }) ∧
  (∀ (i : Instr) (s t : State),
    (∃ x kk, i = .seImm x kk) ∨ (∃ x kk, i = .sneImm x kk) ∨ (∃ x y, i = .seReg x y) ∨
      (∃ x y, i = .sneReg x y) ∨ (∃ nnn, i = .jp nnn) →
    exec i s = .next t → (∀ r, t.readV r = s.readV r) ∧ (∀ a, t.byteAt a = s.byteAt a) ∧
      t = { s with pc := t.pc })

/-- The frame (40_execution_cycle.md R109, D11, log entry 14) of Annn, Fx15, Fx18 and 00E0: every register and
every byte of memory is as before, and so is everything but the pc and the one destination. -/
def Obligations.SpecialDestinationFrames : Prop :=
  ∀ (s t : State),
    (∀ nnn, exec (.ldI nnn) s = .next t → (∀ r, t.readV r = s.readV r) ∧ (∀ a, t.byteAt a = s.byteAt a) ∧
      t = { s with I := t.I, pc := s.pc + 2 }) ∧
    (∀ x, exec (.ldDtVx x) s = .next t → (∀ r, t.readV r = s.readV r) ∧ (∀ a, t.byteAt a = s.byteAt a) ∧
      t = { s with DT := t.DT, pc := s.pc + 2 }) ∧
    (∀ x, exec (.ldStVx x) s = .next t → (∀ r, t.readV r = s.readV r) ∧ (∀ a, t.byteAt a = s.byteAt a) ∧
      t = { s with ST := t.ST, pc := s.pc + 2 }) ∧
    (exec .cls s = .next t → (∀ r, t.readV r = s.readV r) ∧ (∀ a, t.byteAt a = s.byteAt a) ∧
      t = { s with disp := t.disp, pc := s.pc + 2 })

/-! ### A scheduled step -/

/-- A scheduled `Move.step` does what `step()` does when nothing is scheduled (20_memory.md R60, log entry 2),
whatever the status: the instruction, the poll of a key wait, the repeat of an error. What the statements say of
a step with an empty schedule they so say of every interpreter step. On a step that raises or repeats an error
it equates whole faulted states: that rests on the spec's decision D4 (log entry 7). -/
def Obligations.ScheduledStepActsLikeUnscheduled : Prop :=
  ∀ (s t : State) (rest : List Move), s.schedule = .step :: rest → step (s.setSchedule []) = .next t →
    step s = .next (t.setSchedule rest)
end

