-- ==== Sys2Proof/Laws/Decode.lean ====
section
/-! SUPPORT. The fields of a word built from its format (spec/30_encoding.md R71 to R73), and the word rebuilt
from its fields. -/

namespace Sys2Proof

theorem word_ext {v w : Word} (h : ∀ i : Nat, i < 16 → v.getLsbD i = w.getLsbD i) : v = w :=
  BitVec.eq_of_getLsbD_eq h

@[simp] theorem nibbleOf_toFin (b : BitVec 4) : nibbleOf b.toFin = b := rfl

@[simp] theorem toFin_nibbleOf (r : Fin 16) : (nibbleOf r).toFin = r := rfl

/-! The fields of a word `op x kk`. -/

@[simp] theorem fieldOp_wordXkk (op : BitVec 4) (x : Reg) (kk : Byte) : fieldOp (wordXkk op x kk) = op := by
  refine BitVec.eq_of_getLsbD_eq fun i hi => ?_
  simp only [fieldOp, wordXkk, BitVec.getLsbD_extractLsb', BitVec.getLsbD_append]
  simp [hi, show ¬ (12 + i < 8) by omega, show ¬ (12 + i - 8 < 4) by omega, show 12 + i - 8 - 4 = i by omega]

@[simp] theorem fieldX_wordXkk (op : BitVec 4) (x : Reg) (kk : Byte) : fieldX (wordXkk op x kk) = x := by
  have : (wordXkk op x kk).extractLsb' 8 4 = nibbleOf x := by
    refine BitVec.eq_of_getLsbD_eq fun i hi => ?_
    simp only [wordXkk, BitVec.getLsbD_extractLsb', BitVec.getLsbD_append]
    simp [hi, show ¬ (8 + i < 8) by omega]
  rw [fieldX, this, toFin_nibbleOf]

@[simp] theorem fieldKk_wordXkk (op : BitVec 4) (x : Reg) (kk : Byte) : fieldKk (wordXkk op x kk) = kk := by
  refine BitVec.eq_of_getLsbD_eq fun i hi => ?_
  simp only [fieldKk, wordXkk, BitVec.getLsbD_extractLsb', BitVec.getLsbD_append]
  simp [hi]

/-! The fields of a word `op x y n`. -/

@[simp] theorem fieldOp_wordXyn (op : BitVec 4) (x y n : Fin 16) : fieldOp (wordXyn op x y n) = op := by
  refine BitVec.eq_of_getLsbD_eq fun i hi => ?_
  simp only [fieldOp, wordXyn, nibbles, BitVec.getLsbD_extractLsb', BitVec.getLsbD_append]
  simp [hi, show ¬ (12 + i < 4) by omega, show ¬ (12 + i - 4 < 4) by omega,
    show ¬ (12 + i - 4 - 4 < 4) by omega, show 12 + i - 4 - 4 - 4 = i by omega]

@[simp] theorem fieldX_wordXyn (op : BitVec 4) (x y n : Fin 16) : fieldX (wordXyn op x y n) = x := by
  have : (wordXyn op x y n).extractLsb' 8 4 = nibbleOf x := by
    refine BitVec.eq_of_getLsbD_eq fun i hi => ?_
    simp only [wordXyn, nibbles, BitVec.getLsbD_extractLsb', BitVec.getLsbD_append]
    simp [hi, show ¬ (8 + i < 4) by omega, show ¬ (8 + i - 4 < 4) by omega, show 8 + i - 4 - 4 = i by omega]
  rw [fieldX, this, toFin_nibbleOf]

@[simp] theorem fieldY_wordXyn (op : BitVec 4) (x y n : Fin 16) : fieldY (wordXyn op x y n) = y := by
  have : (wordXyn op x y n).extractLsb' 4 4 = nibbleOf y := by
    refine BitVec.eq_of_getLsbD_eq fun i hi => ?_
    simp only [wordXyn, nibbles, BitVec.getLsbD_extractLsb', BitVec.getLsbD_append]
    simp [hi, show ¬ (4 + i < 4) by omega]
  rw [fieldY, this, toFin_nibbleOf]

@[simp] theorem fieldN_wordXyn (op : BitVec 4) (x y n : Fin 16) : fieldN (wordXyn op x y n) = n := by
  have : (wordXyn op x y n).extractLsb' 0 4 = nibbleOf n := by
    refine BitVec.eq_of_getLsbD_eq fun i hi => ?_
    simp only [wordXyn, nibbles, BitVec.getLsbD_extractLsb', BitVec.getLsbD_append]
    simp [hi]
  rw [fieldN, this, toFin_nibbleOf]

/-! The fields of a word `op nnn`. -/

@[simp] theorem fieldOp_wordNnn (op : BitVec 4) (nnn : Addr12) : fieldOp (wordNnn op nnn) = op := by
  refine BitVec.eq_of_getLsbD_eq fun i hi => ?_
  simp only [fieldOp, wordNnn, BitVec.getLsbD_extractLsb', BitVec.getLsbD_append]
  simp [hi, show ¬ (12 + i < 12) by omega]

@[simp] theorem fieldNnn_wordNnn (op : BitVec 4) (nnn : Addr12) : fieldNnn (wordNnn op nnn) = nnn := by
  refine BitVec.eq_of_getLsbD_eq fun i hi => ?_
  simp only [fieldNnn, wordNnn, BitVec.getLsbD_extractLsb', BitVec.getLsbD_append]
  simp [hi]

/-! A word from its fields. -/

theorem wordXkk_fields (w : Word) : wordXkk (fieldOp w) (fieldX w) (fieldKk w) = w := by
  refine word_ext fun i hi => ?_
  simp only [wordXkk, fieldOp, fieldX, fieldKk, nibbleOf_toFin, BitVec.getLsbD_append,
    BitVec.getLsbD_extractLsb']
  by_cases h8 : i < 8
  · simp [h8]
  · by_cases h12 : i - 8 < 4
    · simp [h8, h12, show 8 + (i - 8) = i by omega]
    · simp [h8, h12, show i - 8 - 4 < 4 by omega, show 12 + (i - 8 - 4) = i by omega]

theorem wordXyn_fields (w : Word) : wordXyn (fieldOp w) (fieldX w) (fieldY w) (fieldN w) = w := by
  refine word_ext fun i hi => ?_
  simp only [wordXyn, nibbles, fieldOp, fieldX, fieldY, fieldN, nibbleOf_toFin, BitVec.getLsbD_append,
    BitVec.getLsbD_extractLsb']
  by_cases h4 : i < 4
  · simp [h4]
  · by_cases h8 : i - 4 < 4
    · simp [h4, h8, show 4 + (i - 4) = i by omega]
    · by_cases h12 : i - 4 - 4 < 4
      · simp [h4, h8, h12, show 8 + (i - 4 - 4) = i by omega]
      · simp [h4, h8, h12, show i - 4 - 4 - 4 < 4 by omega, show 12 + (i - 4 - 4 - 4) = i by omega]

theorem wordNnn_fields (w : Word) : wordNnn (fieldOp w) (fieldNnn w) = w := by
  refine word_ext fun i hi => ?_
  simp only [wordNnn, fieldOp, fieldNnn, BitVec.getLsbD_append, BitVec.getLsbD_extractLsb']
  by_cases h12 : i < 12
  · simp [h12]
  · simp [h12, show i - 12 < 4 by omega, show 12 + (i - 12) = i by omega]

/-- The bytes of a word, read back big-endian, are the word (R56). -/
theorem wordOfBytes_bytesOfWord (w : Word) :
    wordOfBytes (w.extractLsb' 8 8) (w.extractLsb' 0 8) = w := by
  refine word_ext fun i hi => ?_
  simp only [wordOfBytes, BitVec.getLsbD_append, BitVec.getLsbD_extractLsb']
  by_cases h8 : i < 8
  · simp [h8]
  · simp [h8, show i - 8 < 8 by omega, show 8 + (i - 8) = i by omega]

/-- `word = hi * 256 + lo` (R56). -/
theorem wordOfBytes_toNat (hi lo : Byte) : (wordOfBytes hi lo).toNat = hi.toNat * 256 + lo.toNat := by
  have := lo.isLt
  simp only [wordOfBytes, BitVec.toNat_append]
  rw [Nat.shiftLeft_eq, Nat.mul_comm, ← Nat.two_pow_add_eq_or_of_lt this, Nat.mul_comm]

end Sys2Proof
end

