-- ==== Sys2Proof/Laws/Memory.lean ====
section
/-! SUPPORT. The laws of the memory bank: read after write, the bytes a run of writes leaves, and that every
write keeps the canonical form. -/

namespace Sys2Proof.Machine.Memory

variable (c : Config)

theorem read_without_same (a : Nat) (m : Memory) : read c (without a m) a = blank c a := by
  induction m with
  | nil => rfl
  | cons cell rest ih =>
    obtain ⟨b, w⟩ := cell
    by_cases h : b = a
    · simpa [without, h] using ih
    · simpa [without, h, read, Ne.symm h] using ih

theorem read_without_other {a b : Nat} (h : b ≠ a) (m : Memory) : read c (without a m) b = read c m b := by
  induction m with
  | nil => rfl
  | cons cell rest ih =>
    obtain ⟨d, w⟩ := cell
    by_cases hd : d = a
    · subst hd
      simpa [without, read, h] using ih
    · have keep : without a ((d, w) :: rest) = (d, w) :: without a rest := by simp [without, hd]
      rw [keep, read, read, ih]

theorem read_place_same (a : Nat) (v : Byte) (m : Memory) (h : ∀ p ∈ m, p.1 ≠ a) :
    read c (place a v m) a = v := by
  induction m with
  | nil => simp [place, read]
  | cons cell rest ih =>
    obtain ⟨b, w⟩ := cell
    have hb : a ≠ b := fun e => h (b, w) (by simp) e.symm
    by_cases hlt : a < b
    · simp [place, hlt, read]
    · simpa [place, hlt, read, hb] using ih fun p hp => h p (by simp [hp])

theorem read_place_other {a b : Nat} (h : b ≠ a) (v : Byte) (m : Memory) :
    read c (place a v m) b = read c m b := by
  induction m with
  | nil => simp [place, read, h]
  | cons cell rest ih =>
    obtain ⟨d, w⟩ := cell
    by_cases hlt : a < d
    · simp [place, hlt, read, h]
    · simp [place, hlt, read, ih]

theorem mem_without {a : Nat} {m : Memory} {p : Host.Cell} (hp : p ∈ without a m) : p ∈ m ∧ p.1 ≠ a := by
  simpa [without] using hp

theorem mem_place {a : Nat} {v : Byte} {m : Memory} {p : Host.Cell} (hp : p ∈ place a v m) :
    p = (a, v) ∨ p ∈ m := by
  induction m with
  | nil => simpa [place] using hp
  | cons cell rest ih =>
    simp only [place] at hp
    split at hp
    · simpa using hp
    · rcases List.mem_cons.1 hp with rfl | hp
      · simp
      · rcases ih hp with h | h <;> simp [h]

/-- A read at the address written gives the value written. -/
theorem read_write_same (a : Nat) (v : Byte) (m : Memory) : read c (write c a v m) a = v := by
  unfold write
  split
  · simpa [*] using read_without_same c a m
  · exact read_place_same c a v _ fun p hp => (mem_without hp).2

/-- A write leaves every other address alone. -/
theorem read_write_other {a b : Nat} (h : b ≠ a) (v : Byte) (m : Memory) :
    read c (write c a v m) b = read c m b := by
  unfold write
  split
  · exact read_without_other c h m
  · rw [read_place_other c h, read_without_other c h]

/-- What every address reads as after a run of writes: the byte written there, or what it read before. -/
theorem read_writeAll (a : Nat) (bytes : List Byte) (m : Memory) (b : Nat) :
    read c (writeAll c a bytes m) b =
      if a ≤ b then (bytes[b - a]?).getD (read c m b) else read c m b := by
  induction bytes generalizing a m with
  | nil => simp [writeAll]
  | cons v vs ih =>
    rw [writeAll, ih]
    rcases Nat.lt_trichotomy b a with h | h | h
    · rw [if_neg (by omega), if_neg (by omega), read_write_other c (by omega)]
    · subst h
      simp [read_write_same]
    · obtain ⟨k, hk⟩ : ∃ k, b - a = k + 1 := ⟨b - a - 1, by omega⟩
      rw [if_pos (by omega), if_pos (by omega), read_write_other c (by omega), hk,
        show b - (a + 1) = k by omega, List.getElem?_cons_succ]

/-- The bytes written read back (R52). -/
theorem read_writeAll_inside {a b : Nat} {bytes : List Byte} (m : Memory) (h : a ≤ b)
    (h' : b - a < bytes.length) : read c (writeAll c a bytes m) b = bytes[b - a] := by
  rw [read_writeAll, if_pos h]
  simp [h']

/-- Outside the bytes written, nothing changes (R52, R109). -/
theorem read_writeAll_outside {a b : Nat} {bytes : List Byte} (m : Memory)
    (h : b < a ∨ a + bytes.length ≤ b) : read c (writeAll c a bytes m) b = read c m b := by
  rw [read_writeAll]
  split
  · rw [List.getElem?_eq_none (by omega)]
    rfl
  · rfl

theorem wf_without (a : Nat) {m : Memory} (h : wf c m) : wf c (without a m) :=
  ⟨h.1.filter _, fun p hp => h.2 p (mem_without hp).1⟩

theorem wf_place {a : Nat} {v : Byte} {m : Memory} (h : wf c m) (ha : a < 4096) (hv : v ≠ blank c a)
    (hne : ∀ p ∈ m, p.1 ≠ a) : wf c (place a v m) := by
  refine ⟨?_, fun p hp => ?_⟩
  · induction m with
    | nil => simp [place]
    | cons cell rest ih =>
      obtain ⟨⟨hhead, htail⟩, hcells⟩ := And.imp_left List.pairwise_cons.1 h
      have hne' : a ≠ cell.1 := fun e => hne cell (by simp) e.symm
      simp only [place]
      split
      · next hlt =>
        refine List.pairwise_cons.2 ⟨fun p hp => ?_, h.1⟩
        rcases List.mem_cons.1 hp with rfl | hp
        · exact hlt
        · exact Nat.lt_trans hlt (hhead p hp)
      · next hlt =>
        refine List.pairwise_cons.2 ⟨fun p hp => ?_, ih ⟨htail, fun p hp => hcells p (by simp [hp])⟩
          fun p hp => hne p (by simp [hp])⟩
        rcases mem_place hp with rfl | hp
        · exact Nat.lt_of_le_of_ne (Nat.le_of_not_lt hlt) hne'.symm
        · exact hhead p hp
  · rcases mem_place hp with rfl | hp
    · exact ⟨ha, hv⟩
    · exact h.2 p hp

/-- Writing one byte keeps the canonical form. -/
theorem wf_write {a : Nat} (v : Byte) {m : Memory} (h : wf c m) (ha : a < 4096) : wf c (write c a v m) := by
  unfold write
  split
  · exact wf_without c a h
  · next hv => exact wf_place c (wf_without c a h) ha hv fun p hp => (mem_without hp).2

/-- Writing a run of bytes keeps the canonical form. -/
theorem wf_writeAll {a : Nat} {bytes : List Byte} {m : Memory} (h : wf c m) (ha : a + bytes.length ≤ 4096) :
    wf c (writeAll c a bytes m) := by
  induction bytes generalizing a m with
  | nil => exact h
  | cons v vs ih =>
    simp only [List.length_cons] at ha
    exact ih (wf_write c v h (by omega)) (by omega)

/-- The reset memory lists nothing and is canonical. -/
theorem wf_nil : wf c [] := ⟨List.Pairwise.nil, by simp⟩

end Sys2Proof.Machine.Memory
end

