-- ==== Sys2Proof/Laws/State.lean ====
section
/-! SUPPORT. Each field after each field update, after a register write, after the pc advance and after the
skip: the simp set that keeps record updates folded in every later proof. -/

namespace Sys2Proof.Machine.State

variable (s : State)

@[simp] theorem setMem_mem (m : Memory) : (s.setMem m).mem = m := rfl
@[simp] theorem setMem_V (m : Memory) : (s.setMem m).V = s.V := rfl
@[simp] theorem setMem_I (m : Memory) : (s.setMem m).I = s.I := rfl
@[simp] theorem setMem_pc (m : Memory) : (s.setMem m).pc = s.pc := rfl
@[simp] theorem setMem_stack (m : Memory) : (s.setMem m).stack = s.stack := rfl
@[simp] theorem setMem_DT (m : Memory) : (s.setMem m).DT = s.DT := rfl
@[simp] theorem setMem_ST (m : Memory) : (s.setMem m).ST = s.ST := rfl
@[simp] theorem setMem_disp (m : Memory) : (s.setMem m).disp = s.disp := rfl
@[simp] theorem setMem_keys (m : Memory) : (s.setMem m).keys = s.keys := rfl
@[simp] theorem setMem_status (m : Memory) : (s.setMem m).status = s.status := rfl
@[simp] theorem setMem_config (m : Memory) : (s.setMem m).config = s.config := rfl
@[simp] theorem setMem_draws (m : Memory) : (s.setMem m).draws = s.draws := rfl
@[simp] theorem setMem_schedule (m : Memory) : (s.setMem m).schedule = s.schedule := rfl

@[simp] theorem setRegs_mem (v : Vector Byte 16) : (s.setRegs v).mem = s.mem := rfl
@[simp] theorem setRegs_V (v : Vector Byte 16) : (s.setRegs v).V = v := rfl
@[simp] theorem setRegs_I (v : Vector Byte 16) : (s.setRegs v).I = s.I := rfl
@[simp] theorem setRegs_pc (v : Vector Byte 16) : (s.setRegs v).pc = s.pc := rfl
@[simp] theorem setRegs_stack (v : Vector Byte 16) : (s.setRegs v).stack = s.stack := rfl
@[simp] theorem setRegs_DT (v : Vector Byte 16) : (s.setRegs v).DT = s.DT := rfl
@[simp] theorem setRegs_ST (v : Vector Byte 16) : (s.setRegs v).ST = s.ST := rfl
@[simp] theorem setRegs_disp (v : Vector Byte 16) : (s.setRegs v).disp = s.disp := rfl
@[simp] theorem setRegs_keys (v : Vector Byte 16) : (s.setRegs v).keys = s.keys := rfl
@[simp] theorem setRegs_status (v : Vector Byte 16) : (s.setRegs v).status = s.status := rfl
@[simp] theorem setRegs_config (v : Vector Byte 16) : (s.setRegs v).config = s.config := rfl
@[simp] theorem setRegs_draws (v : Vector Byte 16) : (s.setRegs v).draws = s.draws := rfl
@[simp] theorem setRegs_schedule (v : Vector Byte 16) : (s.setRegs v).schedule = s.schedule := rfl

@[simp] theorem setI_mem (v : Word) : (s.setI v).mem = s.mem := rfl
@[simp] theorem setI_V (v : Word) : (s.setI v).V = s.V := rfl
@[simp] theorem setI_I (v : Word) : (s.setI v).I = v := rfl
@[simp] theorem setI_pc (v : Word) : (s.setI v).pc = s.pc := rfl
@[simp] theorem setI_stack (v : Word) : (s.setI v).stack = s.stack := rfl
@[simp] theorem setI_DT (v : Word) : (s.setI v).DT = s.DT := rfl
@[simp] theorem setI_ST (v : Word) : (s.setI v).ST = s.ST := rfl
@[simp] theorem setI_disp (v : Word) : (s.setI v).disp = s.disp := rfl
@[simp] theorem setI_keys (v : Word) : (s.setI v).keys = s.keys := rfl
@[simp] theorem setI_status (v : Word) : (s.setI v).status = s.status := rfl
@[simp] theorem setI_config (v : Word) : (s.setI v).config = s.config := rfl
@[simp] theorem setI_draws (v : Word) : (s.setI v).draws = s.draws := rfl
@[simp] theorem setI_schedule (v : Word) : (s.setI v).schedule = s.schedule := rfl

@[simp] theorem setPc_mem (t : Word) : (s.setPc t).mem = s.mem := rfl
@[simp] theorem setPc_V (t : Word) : (s.setPc t).V = s.V := rfl
@[simp] theorem setPc_I (t : Word) : (s.setPc t).I = s.I := rfl
@[simp] theorem setPc_pc (t : Word) : (s.setPc t).pc = t := rfl
@[simp] theorem setPc_stack (t : Word) : (s.setPc t).stack = s.stack := rfl
@[simp] theorem setPc_DT (t : Word) : (s.setPc t).DT = s.DT := rfl
@[simp] theorem setPc_ST (t : Word) : (s.setPc t).ST = s.ST := rfl
@[simp] theorem setPc_disp (t : Word) : (s.setPc t).disp = s.disp := rfl
@[simp] theorem setPc_keys (t : Word) : (s.setPc t).keys = s.keys := rfl
@[simp] theorem setPc_status (t : Word) : (s.setPc t).status = s.status := rfl
@[simp] theorem setPc_config (t : Word) : (s.setPc t).config = s.config := rfl
@[simp] theorem setPc_draws (t : Word) : (s.setPc t).draws = s.draws := rfl
@[simp] theorem setPc_schedule (t : Word) : (s.setPc t).schedule = s.schedule := rfl

@[simp] theorem setStack_mem (l : List Word) : (s.setStack l).mem = s.mem := rfl
@[simp] theorem setStack_V (l : List Word) : (s.setStack l).V = s.V := rfl
@[simp] theorem setStack_I (l : List Word) : (s.setStack l).I = s.I := rfl
@[simp] theorem setStack_pc (l : List Word) : (s.setStack l).pc = s.pc := rfl
@[simp] theorem setStack_stack (l : List Word) : (s.setStack l).stack = l := rfl
@[simp] theorem setStack_DT (l : List Word) : (s.setStack l).DT = s.DT := rfl
@[simp] theorem setStack_ST (l : List Word) : (s.setStack l).ST = s.ST := rfl
@[simp] theorem setStack_disp (l : List Word) : (s.setStack l).disp = s.disp := rfl
@[simp] theorem setStack_keys (l : List Word) : (s.setStack l).keys = s.keys := rfl
@[simp] theorem setStack_status (l : List Word) : (s.setStack l).status = s.status := rfl
@[simp] theorem setStack_config (l : List Word) : (s.setStack l).config = s.config := rfl
@[simp] theorem setStack_draws (l : List Word) : (s.setStack l).draws = s.draws := rfl
@[simp] theorem setStack_schedule (l : List Word) : (s.setStack l).schedule = s.schedule := rfl

@[simp] theorem setDT_mem (v : Byte) : (s.setDT v).mem = s.mem := rfl
@[simp] theorem setDT_V (v : Byte) : (s.setDT v).V = s.V := rfl
@[simp] theorem setDT_I (v : Byte) : (s.setDT v).I = s.I := rfl
@[simp] theorem setDT_pc (v : Byte) : (s.setDT v).pc = s.pc := rfl
@[simp] theorem setDT_stack (v : Byte) : (s.setDT v).stack = s.stack := rfl
@[simp] theorem setDT_DT (v : Byte) : (s.setDT v).DT = v := rfl
@[simp] theorem setDT_ST (v : Byte) : (s.setDT v).ST = s.ST := rfl
@[simp] theorem setDT_disp (v : Byte) : (s.setDT v).disp = s.disp := rfl
@[simp] theorem setDT_keys (v : Byte) : (s.setDT v).keys = s.keys := rfl
@[simp] theorem setDT_status (v : Byte) : (s.setDT v).status = s.status := rfl
@[simp] theorem setDT_config (v : Byte) : (s.setDT v).config = s.config := rfl
@[simp] theorem setDT_draws (v : Byte) : (s.setDT v).draws = s.draws := rfl
@[simp] theorem setDT_schedule (v : Byte) : (s.setDT v).schedule = s.schedule := rfl

@[simp] theorem setST_mem (v : Byte) : (s.setST v).mem = s.mem := rfl
@[simp] theorem setST_V (v : Byte) : (s.setST v).V = s.V := rfl
@[simp] theorem setST_I (v : Byte) : (s.setST v).I = s.I := rfl
@[simp] theorem setST_pc (v : Byte) : (s.setST v).pc = s.pc := rfl
@[simp] theorem setST_stack (v : Byte) : (s.setST v).stack = s.stack := rfl
@[simp] theorem setST_DT (v : Byte) : (s.setST v).DT = s.DT := rfl
@[simp] theorem setST_ST (v : Byte) : (s.setST v).ST = v := rfl
@[simp] theorem setST_disp (v : Byte) : (s.setST v).disp = s.disp := rfl
@[simp] theorem setST_keys (v : Byte) : (s.setST v).keys = s.keys := rfl
@[simp] theorem setST_status (v : Byte) : (s.setST v).status = s.status := rfl
@[simp] theorem setST_config (v : Byte) : (s.setST v).config = s.config := rfl
@[simp] theorem setST_draws (v : Byte) : (s.setST v).draws = s.draws := rfl
@[simp] theorem setST_schedule (v : Byte) : (s.setST v).schedule = s.schedule := rfl

@[simp] theorem setDisp_mem (d : Display) : (s.setDisp d).mem = s.mem := rfl
@[simp] theorem setDisp_V (d : Display) : (s.setDisp d).V = s.V := rfl
@[simp] theorem setDisp_I (d : Display) : (s.setDisp d).I = s.I := rfl
@[simp] theorem setDisp_pc (d : Display) : (s.setDisp d).pc = s.pc := rfl
@[simp] theorem setDisp_stack (d : Display) : (s.setDisp d).stack = s.stack := rfl
@[simp] theorem setDisp_DT (d : Display) : (s.setDisp d).DT = s.DT := rfl
@[simp] theorem setDisp_ST (d : Display) : (s.setDisp d).ST = s.ST := rfl
@[simp] theorem setDisp_disp (d : Display) : (s.setDisp d).disp = d := rfl
@[simp] theorem setDisp_keys (d : Display) : (s.setDisp d).keys = s.keys := rfl
@[simp] theorem setDisp_status (d : Display) : (s.setDisp d).status = s.status := rfl
@[simp] theorem setDisp_config (d : Display) : (s.setDisp d).config = s.config := rfl
@[simp] theorem setDisp_draws (d : Display) : (s.setDisp d).draws = s.draws := rfl
@[simp] theorem setDisp_schedule (d : Display) : (s.setDisp d).schedule = s.schedule := rfl

@[simp] theorem setKeys_mem (k : Keys) : (s.setKeys k).mem = s.mem := rfl
@[simp] theorem setKeys_V (k : Keys) : (s.setKeys k).V = s.V := rfl
@[simp] theorem setKeys_I (k : Keys) : (s.setKeys k).I = s.I := rfl
@[simp] theorem setKeys_pc (k : Keys) : (s.setKeys k).pc = s.pc := rfl
@[simp] theorem setKeys_stack (k : Keys) : (s.setKeys k).stack = s.stack := rfl
@[simp] theorem setKeys_DT (k : Keys) : (s.setKeys k).DT = s.DT := rfl
@[simp] theorem setKeys_ST (k : Keys) : (s.setKeys k).ST = s.ST := rfl
@[simp] theorem setKeys_disp (k : Keys) : (s.setKeys k).disp = s.disp := rfl
@[simp] theorem setKeys_keys (k : Keys) : (s.setKeys k).keys = k := rfl
@[simp] theorem setKeys_status (k : Keys) : (s.setKeys k).status = s.status := rfl
@[simp] theorem setKeys_config (k : Keys) : (s.setKeys k).config = s.config := rfl
@[simp] theorem setKeys_draws (k : Keys) : (s.setKeys k).draws = s.draws := rfl
@[simp] theorem setKeys_schedule (k : Keys) : (s.setKeys k).schedule = s.schedule := rfl

@[simp] theorem setStatus_mem (st : Status) : (s.setStatus st).mem = s.mem := rfl
@[simp] theorem setStatus_V (st : Status) : (s.setStatus st).V = s.V := rfl
@[simp] theorem setStatus_I (st : Status) : (s.setStatus st).I = s.I := rfl
@[simp] theorem setStatus_pc (st : Status) : (s.setStatus st).pc = s.pc := rfl
@[simp] theorem setStatus_stack (st : Status) : (s.setStatus st).stack = s.stack := rfl
@[simp] theorem setStatus_DT (st : Status) : (s.setStatus st).DT = s.DT := rfl
@[simp] theorem setStatus_ST (st : Status) : (s.setStatus st).ST = s.ST := rfl
@[simp] theorem setStatus_disp (st : Status) : (s.setStatus st).disp = s.disp := rfl
@[simp] theorem setStatus_keys (st : Status) : (s.setStatus st).keys = s.keys := rfl
@[simp] theorem setStatus_status (st : Status) : (s.setStatus st).status = st := rfl
@[simp] theorem setStatus_config (st : Status) : (s.setStatus st).config = s.config := rfl
@[simp] theorem setStatus_draws (st : Status) : (s.setStatus st).draws = s.draws := rfl
@[simp] theorem setStatus_schedule (st : Status) : (s.setStatus st).schedule = s.schedule := rfl

@[simp] theorem setDraws_mem (n : Nat) : (s.setDraws n).mem = s.mem := rfl
@[simp] theorem setDraws_V (n : Nat) : (s.setDraws n).V = s.V := rfl
@[simp] theorem setDraws_I (n : Nat) : (s.setDraws n).I = s.I := rfl
@[simp] theorem setDraws_pc (n : Nat) : (s.setDraws n).pc = s.pc := rfl
@[simp] theorem setDraws_stack (n : Nat) : (s.setDraws n).stack = s.stack := rfl
@[simp] theorem setDraws_DT (n : Nat) : (s.setDraws n).DT = s.DT := rfl
@[simp] theorem setDraws_ST (n : Nat) : (s.setDraws n).ST = s.ST := rfl
@[simp] theorem setDraws_disp (n : Nat) : (s.setDraws n).disp = s.disp := rfl
@[simp] theorem setDraws_keys (n : Nat) : (s.setDraws n).keys = s.keys := rfl
@[simp] theorem setDraws_status (n : Nat) : (s.setDraws n).status = s.status := rfl
@[simp] theorem setDraws_config (n : Nat) : (s.setDraws n).config = s.config := rfl
@[simp] theorem setDraws_draws (n : Nat) : (s.setDraws n).draws = n := rfl
@[simp] theorem setDraws_schedule (n : Nat) : (s.setDraws n).schedule = s.schedule := rfl

@[simp] theorem setSchedule_mem (ms : List Move) : (s.setSchedule ms).mem = s.mem := rfl
@[simp] theorem setSchedule_V (ms : List Move) : (s.setSchedule ms).V = s.V := rfl
@[simp] theorem setSchedule_I (ms : List Move) : (s.setSchedule ms).I = s.I := rfl
@[simp] theorem setSchedule_pc (ms : List Move) : (s.setSchedule ms).pc = s.pc := rfl
@[simp] theorem setSchedule_stack (ms : List Move) : (s.setSchedule ms).stack = s.stack := rfl
@[simp] theorem setSchedule_DT (ms : List Move) : (s.setSchedule ms).DT = s.DT := rfl
@[simp] theorem setSchedule_ST (ms : List Move) : (s.setSchedule ms).ST = s.ST := rfl
@[simp] theorem setSchedule_disp (ms : List Move) : (s.setSchedule ms).disp = s.disp := rfl
@[simp] theorem setSchedule_keys (ms : List Move) : (s.setSchedule ms).keys = s.keys := rfl
@[simp] theorem setSchedule_status (ms : List Move) : (s.setSchedule ms).status = s.status := rfl
@[simp] theorem setSchedule_config (ms : List Move) : (s.setSchedule ms).config = s.config := rfl
@[simp] theorem setSchedule_draws (ms : List Move) : (s.setSchedule ms).draws = s.draws := rfl
@[simp] theorem setSchedule_schedule (ms : List Move) : (s.setSchedule ms).schedule = ms := rfl

@[simp] theorem writeV_mem (r : Reg) (v : Byte) : (s.writeV r v).mem = s.mem := rfl
@[simp] theorem writeV_V (r : Reg) (v : Byte) : (s.writeV r v).V = s.V.set r.val v r.isLt := rfl
@[simp] theorem writeV_I (r : Reg) (v : Byte) : (s.writeV r v).I = s.I := rfl
@[simp] theorem writeV_pc (r : Reg) (v : Byte) : (s.writeV r v).pc = s.pc := rfl
@[simp] theorem writeV_stack (r : Reg) (v : Byte) : (s.writeV r v).stack = s.stack := rfl
@[simp] theorem writeV_DT (r : Reg) (v : Byte) : (s.writeV r v).DT = s.DT := rfl
@[simp] theorem writeV_ST (r : Reg) (v : Byte) : (s.writeV r v).ST = s.ST := rfl
@[simp] theorem writeV_disp (r : Reg) (v : Byte) : (s.writeV r v).disp = s.disp := rfl
@[simp] theorem writeV_keys (r : Reg) (v : Byte) : (s.writeV r v).keys = s.keys := rfl
@[simp] theorem writeV_status (r : Reg) (v : Byte) : (s.writeV r v).status = s.status := rfl
@[simp] theorem writeV_config (r : Reg) (v : Byte) : (s.writeV r v).config = s.config := rfl
@[simp] theorem writeV_draws (r : Reg) (v : Byte) : (s.writeV r v).draws = s.draws := rfl
@[simp] theorem writeV_schedule (r : Reg) (v : Byte) : (s.writeV r v).schedule = s.schedule := rfl

@[simp] theorem advance_mem : s.advance.mem = s.mem := rfl
@[simp] theorem advance_V : s.advance.V = s.V := rfl
@[simp] theorem advance_I : s.advance.I = s.I := rfl
@[simp] theorem advance_pc : s.advance.pc = s.pc + 2 := rfl
@[simp] theorem advance_stack : s.advance.stack = s.stack := rfl
@[simp] theorem advance_DT : s.advance.DT = s.DT := rfl
@[simp] theorem advance_ST : s.advance.ST = s.ST := rfl
@[simp] theorem advance_disp : s.advance.disp = s.disp := rfl
@[simp] theorem advance_keys : s.advance.keys = s.keys := rfl
@[simp] theorem advance_status : s.advance.status = s.status := rfl
@[simp] theorem advance_config : s.advance.config = s.config := rfl
@[simp] theorem advance_draws : s.advance.draws = s.draws := rfl
@[simp] theorem advance_schedule : s.advance.schedule = s.schedule := rfl

@[simp] theorem skip_mem : s.skip.mem = s.mem := rfl
@[simp] theorem skip_V : s.skip.V = s.V := rfl
@[simp] theorem skip_I : s.skip.I = s.I := rfl
@[simp] theorem skip_pc : s.skip.pc = s.pc + 2 := rfl
@[simp] theorem skip_stack : s.skip.stack = s.stack := rfl
@[simp] theorem skip_DT : s.skip.DT = s.DT := rfl
@[simp] theorem skip_ST : s.skip.ST = s.ST := rfl
@[simp] theorem skip_disp : s.skip.disp = s.disp := rfl
@[simp] theorem skip_keys : s.skip.keys = s.keys := rfl
@[simp] theorem skip_status : s.skip.status = s.status := rfl
@[simp] theorem skip_config : s.skip.config = s.config := rfl
@[simp] theorem skip_draws : s.skip.draws = s.draws := rfl
@[simp] theorem skip_schedule : s.skip.schedule = s.schedule := rfl

@[simp] theorem advanceSkipIf_mem (b : Bool) : (s.advanceSkipIf b).mem = s.mem := by cases b <;> rfl
@[simp] theorem advanceSkipIf_V (b : Bool) : (s.advanceSkipIf b).V = s.V := by cases b <;> rfl
@[simp] theorem advanceSkipIf_I (b : Bool) : (s.advanceSkipIf b).I = s.I := by cases b <;> rfl
@[simp] theorem advanceSkipIf_stack (b : Bool) : (s.advanceSkipIf b).stack = s.stack := by cases b <;> rfl
@[simp] theorem advanceSkipIf_DT (b : Bool) : (s.advanceSkipIf b).DT = s.DT := by cases b <;> rfl
@[simp] theorem advanceSkipIf_ST (b : Bool) : (s.advanceSkipIf b).ST = s.ST := by cases b <;> rfl
@[simp] theorem advanceSkipIf_disp (b : Bool) : (s.advanceSkipIf b).disp = s.disp := by cases b <;> rfl
@[simp] theorem advanceSkipIf_keys (b : Bool) : (s.advanceSkipIf b).keys = s.keys := by cases b <;> rfl
@[simp] theorem advanceSkipIf_status (b : Bool) : (s.advanceSkipIf b).status = s.status := by cases b <;> rfl
@[simp] theorem advanceSkipIf_config (b : Bool) : (s.advanceSkipIf b).config = s.config := by cases b <;> rfl
@[simp] theorem advanceSkipIf_draws (b : Bool) : (s.advanceSkipIf b).draws = s.draws := by cases b <;> rfl
@[simp] theorem advanceSkipIf_schedule (b : Bool) : (s.advanceSkipIf b).schedule = s.schedule := by cases b <;> rfl

/-- The pc after the fetch advance and a skip that may be taken (R105, R107). -/
theorem advanceSkipIf_pc (b : Bool) : (s.advanceSkipIf b).pc = if b then s.pc + 2 + 2 else s.pc + 2 := by
  cases b <;> rfl

/-- A skip changes the pc only. -/
theorem advanceSkipIf_eq (b : Bool) : s.advanceSkipIf b = { s with pc := (s.advanceSkipIf b).pc } := by
  cases b <;> rfl

/-- A skip that may be taken as one pc update (R105, R107). -/
theorem advanceSkipIf_eq_setPc (b : Bool) :
    s.advanceSkipIf b = s.setPc (if b then s.pc + 2 + 2 else s.pc + 2) := by
  cases b <;> rfl

end Sys2Proof.Machine.State
end

