-- ==== Sys2Proof/Laws/Ops.lean ====
section
/-! SUPPORT. One lemma per shared operation that says all it can do: registers, memory accesses, the stack,
errors and the operand forms. -/

namespace Sys2Proof.Machine

/-! Registers. -/

@[simp] theorem readV_writeV (s : State) (r q : Reg) (v : Byte) :
    (s.writeV r v).readV q = if q = r then v else s.readV q := by
  simp only [State.readV, State.writeV_V, Vector.get_eq_getElem, Vector.getElem_set, Fin.ext_iff, eq_comm]

@[simp] theorem readV_advance (s : State) (r : Reg) : s.advance.readV r = s.readV r := rfl
@[simp] theorem readV_skip (s : State) (r : Reg) : s.skip.readV r = s.readV r := rfl
@[simp] theorem readV_setMem (s : State) (m : Memory) (r : Reg) : (s.setMem m).readV r = s.readV r := rfl
@[simp] theorem readV_setI (s : State) (v : Word) (r : Reg) : (s.setI v).readV r = s.readV r := rfl
@[simp] theorem readV_setPc (s : State) (t : Word) (r : Reg) : (s.setPc t).readV r = s.readV r := rfl
@[simp] theorem readV_setStack (s : State) (l : List Word) (r : Reg) : (s.setStack l).readV r = s.readV r := rfl
@[simp] theorem readV_setDT (s : State) (v : Byte) (r : Reg) : (s.setDT v).readV r = s.readV r := rfl
@[simp] theorem readV_setST (s : State) (v : Byte) (r : Reg) : (s.setST v).readV r = s.readV r := rfl
@[simp] theorem readV_setDisp (s : State) (d : Display) (r : Reg) : (s.setDisp d).readV r = s.readV r := rfl
@[simp] theorem readV_setKeys (s : State) (k : Keys) (r : Reg) : (s.setKeys k).readV r = s.readV r := rfl
@[simp] theorem readV_setStatus (s : State) (st : Status) (r : Reg) : (s.setStatus st).readV r = s.readV r := rfl
@[simp] theorem readV_setDraws (s : State) (n : Nat) (r : Reg) : (s.setDraws n).readV r = s.readV r := rfl
@[simp] theorem readV_setSchedule (s : State) (l : List Move) (r : Reg) :
    (s.setSchedule l).readV r = s.readV r := rfl
@[simp] theorem readV_advanceSkipIf (s : State) (b : Bool) (r : Reg) :
    (s.advanceSkipIf b).readV r = s.readV r := by cases b <;> rfl

/-- Two register files that read alike are equal. -/
theorem regs_ext {s t : State} (h : ∀ r, s.readV r = t.readV r) : s.V = t.V := by
  refine Vector.ext fun i hi => ?_
  simpa [State.readV, Vector.get_eq_getElem] using h ⟨i, hi⟩

/-! Errors. -/

/-- All that `raise` does (R243): a next state, the one before but for the status. -/
theorem raise_eq (e : Fault) (s : State) : raise e s = .next { s with status := .faulted e } := rfl

/-- All that `attempt` does: its continuation on the value, or a raise of the error. -/
theorem attempt_cases {α : Type} (s : State) (r : Except Fault α) (go : α → Result) :
    (∃ v, r = .ok v ∧ attempt s r go = go v) ∨ (∃ e, r = .error e ∧ attempt s r go = raise e s) := by
  cases r with
  | ok v => exact .inl ⟨v, rfl, rfl⟩
  | error e => exact .inr ⟨e, rfl, rfl⟩

@[simp] theorem attempt_ok {α : Type} (s : State) (v : α) (go : α → Result) :
    attempt s (.ok v) go = go v := rfl

@[simp] theorem attempt_error {α : Type} (s : State) (e : Fault) (go : α → Result) :
    attempt s (.error e) go = raise e s := rfl

/-! Memory. -/

@[simp] theorem byteAt_setMem (s : State) (m : Memory) (a : Nat) :
    (s.setMem m).byteAt a = Memory.read s.config m a := rfl

/-- A state with the same memory and parameters reads the same byte everywhere. -/
theorem byteAt_congr {s t : State} (hm : t.mem = s.mem) (hc : t.config = s.config) (a : Nat) :
    t.byteAt a = s.byteAt a := by simp [State.byteAt, hm, hc]

theorem memRead_ok (s : State) {a : Nat} (h : a < 4096) : memRead s a = .ok (s.byteAt a) := if_pos h

theorem memRead_error (s : State) {a : Nat} (h : 4096 ≤ a) : memRead s a = .error (.outOfBounds a s.pc) :=
  if_neg (Nat.not_lt.2 h)

/-- A read of `n` bytes below 4096 gives them all (R51, R53). -/
theorem memReadAll_ok (s : State) {a n : Nat} (h : n = 0 ∨ a + n ≤ 4096) :
    memReadAll s a n = .ok ((List.range n).map fun i => s.byteAt (a + i)) := by
  induction n generalizing a with
  | zero => rfl
  | succ n ih =>
    rw [memReadAll, memRead_ok s (by omega)]
    simp only
    rw [ih (by omega)]
    simp [List.range_succ_eq_map, Function.comp_def, Nat.add_comm, Nat.add_left_comm]

/-- A read that reaches 4096 records the lowest unmapped address (R51, R240). -/
theorem memReadAll_error (s : State) {a n : Nat} (hn : 1 ≤ n) (h : 4096 < a + n) :
    memReadAll s a n = .error (.outOfBounds (max a 4096) s.pc) := by
  induction n generalizing a with
  | zero => omega
  | succ n ih =>
    rw [memReadAll]
    by_cases ha : a < 4096
    · rw [memRead_ok s ha]
      simp only
      rw [ih (by omega) (by omega), show max (a + 1) 4096 = max a 4096 by omega]
    · rw [memRead_error s (Nat.not_lt.1 ha), show max a 4096 = a by omega]

theorem memWrite_ok (s : State) {a : Nat} {bytes : List Byte} (h : a + bytes.length ≤ 4096) :
    memWrite s a bytes = .ok (Memory.writeAll s.config a bytes s.mem) := if_pos h

theorem memWrite_error (s : State) {a : Nat} {bytes : List Byte} (h : 4096 < a + bytes.length) :
    memWrite s a bytes = .error (.outOfBounds (max a 4096) s.pc) := if_neg (Nat.not_le.2 h)

/-! The call stack. -/

/-- All that `Push` does (R28). -/
theorem push_cases (s : State) (v : Word) :
    (s.config.stackCapacity = some s.stack.length ∧ push s v = .error (.stackOverflow s.pc)) ∨
    (s.config.stackCapacity ≠ some s.stack.length ∧ push s v = .ok (s.stack ++ [v])) := by
  unfold push
  split <;> simp_all

/-- All that `Pop` does (R29). -/
theorem pop_cases (s : State) :
    (s.stack = [] ∧ pop s = .error (.stackUnderflow s.pc)) ∨
    (∃ rest v, s.stack = rest ++ [v] ∧ pop s = .ok (v, rest)) := by
  rcases List.eq_nil_or_concat s.stack with h | ⟨rest, v, h⟩
  · exact .inl ⟨h, by simp [pop, h]⟩
  · rw [List.concat_eq_append] at h
    exact .inr ⟨rest, v, h, by simp [pop, h]⟩

/-! Operands. -/

@[simp] theorem addrOperand_toNat (nnn : Addr12) : (addrOperand nnn).toNat = nnn.toNat := by
  have := nnn.isLt
  simp only [addrOperand, BitVec.toNat_setWidth]
  omega

@[simp] theorem wideOperand_toNat (v : Byte) : (wideOperand v).toNat = v.toNat := by
  have := v.isLt
  simp only [wideOperand, BitVec.toNat_setWidth]
  omega

/-- The glyph address is five times the low nibble, 0 to 75 (R192). -/
theorem glyphAddress_toNat : ∀ v : Byte, (glyphAddress v).toNat = 5 * (v.toNat % 16) := by
  decide

@[simp] theorem registerBlock_length (s : State) (x : Reg) : (registerBlock s x).length = x.val + 1 := by
  have := x.isLt
  simp only [registerBlock, List.length_take, Vector.length_toList]
  omega

theorem registerBlock_getElem (s : State) (x : Reg) {i : Nat} (h : i < (registerBlock s x).length)
    (h' : i < 16) : (registerBlock s x)[i] = s.readV ⟨i, h'⟩ := by
  simp [registerBlock, State.readV, Vector.get_eq_getElem]

theorem withRegisterBlock_get (regs : Vector Byte 16) (bytes : List Byte) (r : Reg) :
    (withRegisterBlock regs bytes).get r = (bytes[r.val]?).getD (regs.get r) := by
  simp [withRegisterBlock, Vector.get_eq_getElem]

/-- The key index of a register up to 15 (R216). -/
theorem keyOperand_ok (s : State) (x : Reg) (h : (s.readV x).toNat < 16) :
    keyOperand s x = .ok ⟨(s.readV x).toNat, h⟩ := dif_pos h

/-- The error of a key index above 15 (R216). -/
theorem keyOperand_error (s : State) (x : Reg) (h : 16 ≤ (s.readV x).toNat) :
    keyOperand s x = .error (.outOfBounds (s.readV x).toNat s.pc) := dif_neg (Nat.not_lt.2 h)

end Sys2Proof.Machine
end

