-- ==== Sys2Proof/Laws/Cycle.lean ====
section
/-! SUPPORT. What fetch, the poll of the key wait and one move can do (spec/40_execution_cycle.md R100 to R106,
spec/45_input.md R214, spec/20_memory.md R60). -/

namespace Sys2Proof.Machine

/-- A fetch below 4095 gives the word at `pc` (R104, R56). -/
theorem fetch_ok (s : State) (h : s.pc.toNat + 1 < 4096) : fetch s = .ok (s.wordAt s.pc.toNat) := by
  simp [fetch, memRead_ok s (show s.pc.toNat < 4096 by omega), memRead_ok s h, State.wordAt]

/-- A fetch from 4095 on records the first unmapped of its two addresses (R104). -/
theorem fetch_error (s : State) (h : 4096 ≤ s.pc.toNat + 1) :
    fetch s = .error (.outOfBounds (max s.pc.toNat 4096) s.pc) := by
  by_cases h' : s.pc.toNat < 4096
  · rw [fetch, memRead_ok s h', memRead_error s h, show max s.pc.toNat 4096 = s.pc.toNat + 1 by omega]
  · simp [fetch, memRead_error s (Nat.not_lt.1 h'), show max s.pc.toNat 4096 = s.pc.toNat by omega]

/-- A move with an empty schedule is a call of `step()`. -/
theorem step_of_empty {s : State} (h : s.schedule = []) : step s = interpreterStep s := by
  simp [step, nextMove, h]

/-- A move with a schedule is its first move. -/
theorem step_of_cons {s : State} {m : Move} {rest : List Move} (h : s.schedule = m :: rest) :
    step s = applyMove m (s.setSchedule rest) := by
  simp [step, nextMove, h]

/-- A scheduled `step()` is the interpreter's move with that move taken off the schedule (R60). -/
theorem step_of_scheduled_step {s : State} {rest : List Move} (h : s.schedule = .step :: rest) :
    step s = interpreterStep (s.setSchedule rest) := step_of_cons h

/-- A running interpreter at a fetchable pc executes the instruction there (R103). -/
theorem interpreterStep_of_running {s : State} {i : Instr} (h : s.status = .running)
    (hpc : s.pc.toNat + 1 < 4096) (hd : decode (s.wordAt s.pc.toNat) = .ok i) :
    interpreterStep s = exec i s := by
  simp [interpreterStep, h, fetchDecodeExecute, fetch_ok s hpc, hd]

/-- A ready state at a fetchable pc runs the word there: execute it, or raise `UnknownOpcode` (R103). -/
theorem step_of_ready {s : State} (h : s.ready) (hpc : s.pc.toNat + 1 < 4096) :
    step s = match decode (s.wordAt s.pc.toNat) with
      | .ok i => exec i s
      | .error _ => raise (.unknownOpcode (s.wordAt s.pc.toNat) s.pc) s := by
  rw [step_of_empty h.2]
  cases hd : decode (s.wordAt s.pc.toNat) <;>
    simp [interpreterStep, h.1, fetchDecodeExecute, fetch_ok s hpc, hd]

theorem newlyPressed_iff (sample now : Keys) :
    newlyPressed sample now = true ↔ ∃ k : Reg, now.get k = true ∧ sample.get k = false := by
  simp [newlyPressed, List.any_eq_true]

/-- The key that `lowestPressed` finds is pressed and no lower one is (R214). -/
theorem lowestPressed_some {now : Keys} {k : Reg} (h : lowestPressed now = some k) :
    now.get k = true ∧ ∀ j < k, now.get j = false := by
  obtain ⟨hk, before, after, hl, hb⟩ := List.find?_eq_some_iff_append.1 h
  refine ⟨hk, fun j hj => ?_⟩
  have hsorted : (List.finRange 16).Pairwise (· < ·) := List.pairwise_lt_finRange 16
  rw [hl, List.pairwise_append, List.pairwise_cons] at hsorted
  have hmem : j ∈ List.finRange 16 := List.mem_finRange j
  rw [hl] at hmem
  rcases List.mem_append.1 hmem with hm | hm
  · simpa using hb j hm
  · rcases List.mem_cons.1 hm with rfl | hm
    · exact absurd hj (lt_irrefl _)
    · exact absurd (hsorted.2.1.1 j hm) (not_lt.2 hj.le)

theorem lowestPressed_none {now : Keys} (h : lowestPressed now = none) (k : Reg) : now.get k = false := by
  simpa using List.find?_eq_none.1 h k (List.mem_finRange k)

/-- All that the key of a wake-up can be (R214). -/
theorem wakingKey_cases (sample now : Keys) :
    (∃ k, wakingKey sample now = some k ∧ (∃ j : Reg, now.get j = true ∧ sample.get j = false) ∧
      now.get k = true ∧ ∀ j < k, now.get j = false) ∨
    (wakingKey sample now = none ∧ ¬ ∃ j : Reg, now.get j = true ∧ sample.get j = false) := by
  unfold wakingKey
  split
  · next h =>
    obtain ⟨j, hj⟩ := (newlyPressed_iff sample now).1 h
    cases hl : lowestPressed now with
    | some k => exact .inl ⟨k, rfl, ⟨j, hj⟩, lowestPressed_some hl⟩
    | none => simp [lowestPressed_none hl j] at hj
  · next h => exact .inr ⟨rfl, fun hj => h ((newlyPressed_iff sample now).2 hj)⟩

/-! The host's moves. -/

/-- All that `load` does (R121). -/
theorem loadImage_cases (image : List Byte) (s : State) :
    (image.length ≤ 3584 ∧ loadResult image = true ∧
      loadImage image s = s.setMem (Memory.writeAll s.config 0x200 image s.mem)) ∨
    (3584 < image.length ∧ loadResult image = false ∧ loadImage image s = s) := by
  by_cases h : image.length ≤ 3584
  · have hf : imageFits image = true := decide_eq_true h
    exact .inl ⟨h, hf, if_pos hf⟩
  · have hf : imageFits image = false := decide_eq_false h
    exact .inr ⟨Nat.not_le.1 h, hf, if_neg (by rw [hf]; decide)⟩

/-- All that `set_key` does (R215). -/
theorem pressKey_cases (k : Nat) (pressed : Bool) (s : State) :
    (∃ h : k < 16, pressKey k pressed s = .next (s.setKeys (s.keys.set k pressed h))) ∨
    (16 ≤ k ∧ pressKey k pressed s = .refused (.keyIndexOutOfRange k)) := by
  by_cases h : k < 16
  · exact .inl ⟨h, dif_pos h⟩
  · exact .inr ⟨Nat.not_lt.1 h, dif_neg h⟩

/-! A word put where the next step fetches it. -/

theorem fetchablePc_lt (pc : Word) : (fetchablePc pc).toNat + 1 < 4096 := by
  unfold fetchablePc
  split
  · assumption
  · decide

/-- The state with a word placed is ready and fetches that word. -/
theorem placeWord_spec (w : Word) (s : State) :
    (placeWord w s).ready ∧ (placeWord w s).pc.toNat + 1 < 4096 ∧
      (placeWord w s).wordAt (placeWord w s).pc.toNat = w := by
  refine ⟨⟨rfl, rfl⟩, fetchablePc_lt s.pc, ?_⟩
  have hi : (placeWord w s).byteAt (fetchablePc s.pc).toNat = w.extractLsb' 8 8 := by
    refine (Memory.read_writeAll_inside _ _ (Nat.le_refl _) ?_).trans ?_ <;> simp [bytesOfWord]
  have lo : (placeWord w s).byteAt ((fetchablePc s.pc).toNat + 1) = w.extractLsb' 0 8 := by
    refine (Memory.read_writeAll_inside _ _ (Nat.le_succ _) ?_).trans ?_ <;> simp [bytesOfWord]
  show wordOfBytes _ _ = w
  rw [show (placeWord w s).pc = fetchablePc s.pc from rfl, hi, lo, wordOfBytes_bytesOfWord]

end Sys2Proof.Machine
end

