-- ==== Sys2Proof/Laws/Display.lean ====
section
/-! SUPPORT. What a flip, a run of flips and a sprite do to each pixel (spec/41_display.md R131 to R134). -/

namespace Sys2Proof.Machine

@[simp] theorem pixel_flip (d : Display) (c c' : Fin 64) (r r' : Fin 32) :
    (d.flip c r).pixel c' r' = if c' = c ∧ r' = r then !(d.pixel c' r') else d.pixel c' r' := by
  by_cases hc : c' = c
  · subst hc
    by_cases hr : r' = r
    · subst hr
      simp [Display.flip, Display.pixel, Vector.get_eq_getElem]
    · have hr' : r.val ≠ r'.val := fun e => hr (Fin.ext e.symm)
      simp [Display.flip, Display.pixel, Vector.get_eq_getElem, hr, hr']
  · have hc' : c.val ≠ c'.val := fun e => hc (Fin.ext e.symm)
    simp [Display.flip, Display.pixel, Vector.get_eq_getElem, hc, hc']

@[simp] theorem pixel_clear (c : Fin 64) (r : Fin 32) : Display.clear.pixel c r = false := by
  simp [Display.clear, Display.pixel, Vector.get_eq_getElem]

/-- Two displays with the same pixels are equal. -/
theorem display_ext {d e : Display} (h : ∀ c r, d.pixel c r = e.pixel c r) : d = e := by
  refine Vector.ext fun c hc => Vector.ext fun r hr => ?_
  simpa [Display.pixel, Vector.get_eq_getElem] using h ⟨c, hc⟩ ⟨r, hr⟩

/-- A run of flips over distinct pixels flips exactly those pixels. -/
theorem flipPixels_pixel (ps : List (Fin 64 × Fin 32)) (hnd : ps.Nodup) (d : Display) (b : Bool)
    (c : Fin 64) (r : Fin 32) :
    (flipPixels ps d b).1.pixel c r = if (c, r) ∈ ps then !(d.pixel c r) else d.pixel c r := by
  induction ps generalizing d b with
  | nil => simp [flipPixels]
  | cons p ps ih =>
    obtain ⟨hp, hnd⟩ := List.nodup_cons.1 hnd
    rw [flipPixels, ih hnd, pixel_flip]
    obtain ⟨c', r'⟩ := p
    by_cases h : c = c' ∧ r = r'
    · obtain ⟨rfl, rfl⟩ := h
      simp [hp]
    · simp [h]

/-- The erased mark of a run of flips over distinct pixels: one of them was on (R134). -/
theorem flipPixels_erased (ps : List (Fin 64 × Fin 32)) (hnd : ps.Nodup) (d : Display) (b : Bool) :
    (flipPixels ps d b).2 = true ↔ b = true ∨ ∃ p ∈ ps, d.pixel p.1 p.2 = true := by
  induction ps generalizing d b with
  | nil => simp [flipPixels]
  | cons p ps ih =>
    obtain ⟨hp, hnd⟩ := List.nodup_cons.1 hnd
    rw [flipPixels, ih hnd]
    have same : ∀ q ∈ ps, (d.flip p.1 p.2).pixel q.1 q.2 = d.pixel q.1 q.2 := by
      intro q hq
      rw [pixel_flip, if_neg]
      rintro ⟨h1, h2⟩
      exact hp (Prod.ext h1 h2 ▸ hq)
    constructor
    · rintro (h | ⟨q, hq, h⟩)
      · rcases Bool.or_eq_true _ _ ▸ h with h | h
        · exact .inl h
        · exact .inr ⟨p, by simp, h⟩
      · exact .inr ⟨q, by simp [hq], same q hq ▸ h⟩
    · rintro (h | ⟨q, hq, h⟩)
      · exact .inl (by simp [h])
      · rcases List.mem_cons.1 hq with rfl | hq
        · exact .inl (by simp [h])
        · exact .inr ⟨q, hq, (same q hq).symm ▸ h⟩

theorem mem_rowPixels (vx vy : Byte) (r : Nat) (row : Byte) (p : Fin 64 × Fin 32) :
    p ∈ rowPixels vx vy r row ↔
      ∃ c < 8, spriteBit row c = true ∧ p = (pixelColumn vx c, pixelRow vy r) := by
  simp only [rowPixels, List.mem_map, List.mem_filter, List.mem_range, and_assoc]
  exact exists_congr fun c => by rw [@eq_comm _ p]

/-- The pixels of a sprite: those of a set bit of one of its rows (R131). -/
theorem mem_spritePixels (vx vy : Byte) (r : Nat) (rows : List Byte) (p : Fin 64 × Fin 32) :
    p ∈ spritePixels vx vy r rows ↔
      ∃ i, ∃ h : i < rows.length, ∃ c < 8, spriteBit rows[i] c = true ∧
        p = (pixelColumn vx c, pixelRow vy (r + i)) := by
  induction rows generalizing r with
  | nil => simp [spritePixels]
  | cons row rows ih =>
    rw [spritePixels, List.mem_append, mem_rowPixels, ih]
    constructor
    · rintro (⟨c, hc, hb, rfl⟩ | ⟨i, h, c, hc, hb, rfl⟩)
      · exact ⟨0, by simp, c, hc, hb, rfl⟩
      · exact ⟨i + 1, by simpa using h, c, hc, hb, by rw [Nat.add_right_comm, Nat.add_assoc]⟩
    · rintro ⟨i, h, c, hc, hb, rfl⟩
      cases i with
      | zero => exact .inl ⟨c, hc, hb, rfl⟩
      | succ i => exact .inr ⟨i, by simpa using h, c, hc, hb, by rw [Nat.add_right_comm, Nat.add_assoc]⟩

/-- A sprite of at most 32 rows covers no pixel twice (R133). -/
theorem nodup_spritePixels (vx vy : Byte) (r : Nat) (rows : List Byte) (h : rows.length ≤ 32) :
    (spritePixels vx vy r rows).Nodup := by
  induction rows generalizing r with
  | nil => simp [spritePixels]
  | cons row rows ih =>
    simp only [List.length_cons] at h
    rw [spritePixels, List.nodup_append]
    refine ⟨?_, ih (r + 1) (by omega), ?_⟩
    · refine List.Nodup.map_on ?_ (List.nodup_range.filter _)
      intro c hc c' hc' e
      have hc8 := List.mem_range.1 (List.mem_filter.1 hc).1
      have hc8' := List.mem_range.1 (List.mem_filter.1 hc').1
      have e := congrArg (fun p => p.1.val) e
      simp only [pixelColumn] at e
      omega
    · intro p hp q hq e
      subst e
      obtain ⟨c, -, -, hp⟩ := (mem_rowPixels ..).1 hp
      obtain ⟨i, hi, c', -, -, hq⟩ := (mem_spritePixels ..).1 hq
      have e := congrArg (fun p => p.2.val) (hp.symm.trans hq)
      simp only [pixelRow] at e
      omega

/-- All that a sprite of at most 32 rows does to a pixel (R131): flip it exactly when a set bit covers it. -/
theorem drawSprite_pixel (vx vy : Byte) (rows : List Byte) (h : rows.length ≤ 32) (d : Display)
    (c : Fin 64) (r : Fin 32) :
    (drawSprite vx vy rows d).1.pixel c r =
      if (c, r) ∈ spritePixels vx vy 0 rows then !(d.pixel c r) else d.pixel c r :=
  flipPixels_pixel _ (nodup_spritePixels vx vy 0 rows h) d false c r

/-- The mark of a sprite of at most 32 rows: a covered pixel was on (R134). -/
theorem drawSprite_erased (vx vy : Byte) (rows : List Byte) (h : rows.length ≤ 32) (d : Display) :
    (drawSprite vx vy rows d).2 = true ↔ ∃ p ∈ spritePixels vx vy 0 rows, d.pixel p.1 p.2 = true := by
  simpa [drawSprite] using flipPixels_erased _ (nodup_spritePixels vx vy 0 rows h) d false

end Sys2Proof.Machine
end

