-- ==== Sys2Proof/Laws/Exec.lean ====
section
/-! SUPPORT. What each meaning that can raise an error answers: the one next state of its effect, or the raise of
its one error, each under its condition (spec/60_exceptions.md R241). The other meanings are one next state by
definition. -/

namespace Sys2Proof.Machine

/-- 00EE (R140). -/
theorem execRet_cases (s : State) :
    (∃ rest v, s.stack = rest ++ [v] ∧ execRet s = .next ((s.setStack rest).setPc v)) ∨
    (s.stack = [] ∧ execRet s = raise (.stackUnderflow s.pc) s) := by
  rcases pop_cases s with ⟨h, hp⟩ | ⟨rest, v, h, hp⟩
  · exact .inr ⟨h, by rw [execRet, hp, attempt_error]⟩
  · exact .inl ⟨rest, v, h, by rw [execRet, hp, attempt_ok]⟩

/-- 2nnn (R142). -/
theorem execCall_cases (nnn : Addr12) (s : State) :
    (s.config.stackCapacity ≠ some s.stack.length ∧
      execCall nnn s = .next ((s.setStack (s.stack ++ [s.pc + 2])).setPc (addrOperand nnn))) ∨
    (s.config.stackCapacity = some s.stack.length ∧ execCall nnn s = raise (.stackOverflow s.pc) s) := by
  rcases push_cases s s.advance.pc with ⟨h, hp⟩ | ⟨h, hp⟩
  · exact .inr ⟨h, by rw [execCall, hp, attempt_error]⟩
  · exact .inl ⟨h, by rw [execCall, hp, attempt_ok, State.advance_pc]⟩

/-- The `n` bytes from the base address on (R131, R195). -/
abbrev bytesFrom (s : State) (n : Nat) : List Byte := (List.range n).map fun i => s.byteAt (baseAddress s + i)

/-- Dxyn (R131, R136). -/
theorem execDrw_cases (x y : Reg) (n : Fin 16) (s : State) :
    ((n.val = 0 ∨ baseAddress s + n.val ≤ 4096) ∧
      execDrw x y n s = .next ((s.advance.setDisp
          (drawSprite (s.readV x) (s.readV y) (bytesFrom s n.val) s.disp).1).writeV Reg.vf
          (erasedFlag (drawSprite (s.readV x) (s.readV y) (bytesFrom s n.val) s.disp).2))) ∨
    ((1 ≤ n.val ∧ 4096 < baseAddress s + n.val) ∧
      execDrw x y n s = raise (.outOfBounds (max (baseAddress s) 4096) s.pc) s) := by
  by_cases h : n.val = 0 ∨ baseAddress s + n.val ≤ 4096
  · exact .inl ⟨h, by rw [execDrw, memReadAll_ok s h, attempt_ok]⟩
  · have h' : 1 ≤ n.val ∧ 4096 < baseAddress s + n.val := by omega
    exact .inr ⟨h', by rw [execDrw, memReadAll_error s h'.1 h'.2, attempt_error]⟩

/-- Fx33 (R193). -/
theorem execLdBVx_cases (x : Reg) (s : State) :
    (baseAddress s + 3 ≤ 4096 ∧ execLdBVx x s = .next (s.advance.setMem
        (Memory.writeAll s.config (baseAddress s) (decimalDigits (s.readV x)) s.mem))) ∨
    (4096 < baseAddress s + 3 ∧
      execLdBVx x s = raise (.outOfBounds (max (baseAddress s) 4096) s.pc) s) := by
  by_cases h : baseAddress s + 3 ≤ 4096
  · exact .inl ⟨h, by rw [execLdBVx, memWrite_ok s h, attempt_ok]⟩
  · exact .inr ⟨Nat.not_le.1 h, by rw [execLdBVx, memWrite_error s (Nat.not_le.1 h), attempt_error]⟩

/-- Fx55 (R194). -/
theorem execLdMemVx_cases (x : Reg) (s : State) :
    (baseAddress s + (x.val + 1) ≤ 4096 ∧ execLdMemVx x s = .next (s.advance.setMem
        (Memory.writeAll s.config (baseAddress s) (registerBlock s x) s.mem))) ∨
    (4096 < baseAddress s + (x.val + 1) ∧
      execLdMemVx x s = raise (.outOfBounds (max (baseAddress s) 4096) s.pc) s) := by
  by_cases h : baseAddress s + (x.val + 1) ≤ 4096
  · exact .inl ⟨h, by rw [execLdMemVx, memWrite_ok s (by simpa using h), attempt_ok]⟩
  · have h' := Nat.not_le.1 h
    exact .inr ⟨h', by rw [execLdMemVx, memWrite_error s (by simpa using h'), attempt_error]⟩

/-- Fx65 (R195). -/
theorem execLdVxMem_cases (x : Reg) (s : State) :
    (baseAddress s + (x.val + 1) ≤ 4096 ∧ execLdVxMem x s =
      .next (s.advance.setRegs (withRegisterBlock s.V (bytesFrom s (x.val + 1))))) ∨
    (4096 < baseAddress s + (x.val + 1) ∧
      execLdVxMem x s = raise (.outOfBounds (max (baseAddress s) 4096) s.pc) s) := by
  by_cases h : baseAddress s + (x.val + 1) ≤ 4096
  · exact .inl ⟨h, by rw [execLdVxMem, memReadAll_ok s (.inr h), attempt_ok]⟩
  · have h' := Nat.not_le.1 h
    exact .inr ⟨h', by rw [execLdVxMem, memReadAll_error s (by omega) h', attempt_error]⟩

/-- Ex9E (R211, R216). -/
theorem execSkp_cases (x : Reg) (s : State) :
    (∃ k : Reg, k.val = (s.readV x).toNat ∧ execSkp x s = .next (s.advanceSkipIf (s.keys.get k))) ∨
    (16 ≤ (s.readV x).toNat ∧ execSkp x s = raise (.outOfBounds (s.readV x).toNat s.pc) s) := by
  by_cases h : (s.readV x).toNat < 16
  · exact .inl ⟨⟨_, h⟩, rfl, by rw [execSkp, keyOperand_ok s x h, attempt_ok]⟩
  · have h' := Nat.not_lt.1 h
    exact .inr ⟨h', by rw [execSkp, keyOperand_error s x h', attempt_error]⟩

/-- ExA1 (R212, R216). -/
theorem execSknp_cases (x : Reg) (s : State) :
    (∃ k : Reg, k.val = (s.readV x).toNat ∧ execSknp x s = .next (s.advanceSkipIf (!(s.keys.get k)))) ∨
    (16 ≤ (s.readV x).toNat ∧ execSknp x s = raise (.outOfBounds (s.readV x).toNat s.pc) s) := by
  by_cases h : (s.readV x).toNat < 16
  · exact .inl ⟨⟨_, h⟩, rfl, by rw [execSknp, keyOperand_ok s x h, attempt_ok]⟩
  · have h' := Nat.not_lt.1 h
    exact .inr ⟨h', by rw [execSknp, keyOperand_error s x h', attempt_error]⟩

end Sys2Proof.Machine
end

