-- ==== Sys2Proof/Laws/PerInstr.lean ====
section
/-! SUPPORT. Per instruction: its encoding has the fixed bits of its own row in the table of spec/30_encoding.md
R76. -/

namespace Sys2Proof.Laws

theorem and_ones4 (b : BitVec 4) : b &&& 0xF#4 = b := BitVec.and_allOnes

theorem and_ones8 (b : BitVec 8) : b &&& 0xFF#8 = b := BitVec.and_allOnes

/-- A word of the format XKK keeps its family nibble under the mask 0xF000. -/
theorem wordXkk_and_family (op : BitVec 4) (x : Reg) (kk : Byte) :
    wordXkk op x kk &&& 0xF000#16 = wordXkk op 0 0 := by
  simp only [wordXkk]
  rw [show (0xF000#16) = 0xF#4 ++ 0x0#4 ++ 0x00#8 by decide, BitVec.and_append,
    BitVec.and_append]
  simp [nibbleOf, and_ones4]

/-- A word of the format XF keeps its family nibble and its low byte under the mask 0xF0FF. -/
theorem wordXkk_and_selector (op : BitVec 4) (x : Reg) (kk : Byte) :
    wordXkk op x kk &&& 0xF0FF#16 = wordXkk op 0 kk := by
  simp only [wordXkk]
  rw [show (0xF0FF#16) = 0xF#4 ++ 0x0#4 ++ 0xFF#8 by decide, BitVec.and_append,
    BitVec.and_append]
  simp [nibbleOf, and_ones4, and_ones8]

/-- A word of the format XYN keeps its family nibble under the mask 0xF000. -/
theorem wordXyn_and_family (op : BitVec 4) (x y n : Fin 16) :
    wordXyn op x y n &&& 0xF000#16 = wordXyn op 0 0 0 := by
  simp only [wordXyn, nibbles]
  rw [show (0xF000#16) = 0xF#4 ++ 0x0#4 ++ 0x0#4 ++ 0x0#4 by decide, BitVec.and_append,
    BitVec.and_append, BitVec.and_append]
  simp [nibbleOf, and_ones4]

/-- A word of the formats XY0 and XYF keeps its family and low nibbles under the mask 0xF00F. -/
theorem wordXyn_and_selector (op : BitVec 4) (x y n : Fin 16) :
    wordXyn op x y n &&& 0xF00F#16 = wordXyn op 0 0 n := by
  simp only [wordXyn, nibbles]
  rw [show (0xF00F#16) = 0xF#4 ++ 0x0#4 ++ 0x0#4 ++ 0xF#4 by decide, BitVec.and_append,
    BitVec.and_append, BitVec.and_append]
  simp [nibbleOf, and_ones4]

/-- A word of the format NNN keeps its family nibble under the mask 0xF000. -/
theorem wordNnn_and_family (op : BitVec 4) (nnn : Addr12) :
    wordNnn op nnn &&& 0xF000#16 = wordNnn op 0 := by
  simp only [wordNnn]
  rw [show (0xF000#16) = 0xF#4 ++ 0x000#12 by decide, BitVec.and_append]
  simp [and_ones4]

/-- The instruction's word has the fixed bits of its own row (R76). -/
def RowMatch.Statement (i : Instr) : Prop := ∃ r ∈ opcodeRows, r.number = i.row ∧ r.fits (encode i) = true

theorem RowMatch.cls : RowMatch.Statement .cls :=
  ⟨⟨1, 0x00E0, 0xFFFF⟩, by decide, rfl, by decide⟩
theorem RowMatch.ret : RowMatch.Statement .ret :=
  ⟨⟨2, 0x00EE, 0xFFFF⟩, by decide, rfl, by decide⟩
theorem RowMatch.jp (nnn : Addr12) : RowMatch.Statement (.jp nnn) :=
  ⟨⟨3, 0x1000, 0xF000⟩, by decide, rfl, by
    simp only [OpcodeRow.fits, encode, beq_iff_eq]
    exact (wordNnn_and_family ..).trans (by decide)⟩
theorem RowMatch.call (nnn : Addr12) : RowMatch.Statement (.call nnn) :=
  ⟨⟨4, 0x2000, 0xF000⟩, by decide, rfl, by
    simp only [OpcodeRow.fits, encode, beq_iff_eq]
    exact (wordNnn_and_family ..).trans (by decide)⟩
theorem RowMatch.seImm (x : Reg) (kk : Byte) : RowMatch.Statement (.seImm x kk) :=
  ⟨⟨5, 0x3000, 0xF000⟩, by decide, rfl, by
    simp only [OpcodeRow.fits, encode, beq_iff_eq]
    exact (wordXkk_and_family ..).trans (by decide)⟩
theorem RowMatch.sneImm (x : Reg) (kk : Byte) : RowMatch.Statement (.sneImm x kk) :=
  ⟨⟨6, 0x4000, 0xF000⟩, by decide, rfl, by
    simp only [OpcodeRow.fits, encode, beq_iff_eq]
    exact (wordXkk_and_family ..).trans (by decide)⟩
theorem RowMatch.seReg (x : Reg) (y : Reg) : RowMatch.Statement (.seReg x y) :=
  ⟨⟨7, 0x5000, 0xF00F⟩, by decide, rfl, by
    simp only [OpcodeRow.fits, encode, beq_iff_eq]
    exact (wordXyn_and_selector ..).trans (by decide)⟩
theorem RowMatch.ldImm (x : Reg) (kk : Byte) : RowMatch.Statement (.ldImm x kk) :=
  ⟨⟨8, 0x6000, 0xF000⟩, by decide, rfl, by
    simp only [OpcodeRow.fits, encode, beq_iff_eq]
    exact (wordXkk_and_family ..).trans (by decide)⟩
theorem RowMatch.addImm (x : Reg) (kk : Byte) : RowMatch.Statement (.addImm x kk) :=
  ⟨⟨9, 0x7000, 0xF000⟩, by decide, rfl, by
    simp only [OpcodeRow.fits, encode, beq_iff_eq]
    exact (wordXkk_and_family ..).trans (by decide)⟩
theorem RowMatch.ldReg (x : Reg) (y : Reg) : RowMatch.Statement (.ldReg x y) :=
  ⟨⟨10, 0x8000, 0xF00F⟩, by decide, rfl, by
    simp only [OpcodeRow.fits, encode, beq_iff_eq]
    exact (wordXyn_and_selector ..).trans (by decide)⟩
theorem RowMatch.or (x : Reg) (y : Reg) : RowMatch.Statement (.or x y) :=
  ⟨⟨11, 0x8001, 0xF00F⟩, by decide, rfl, by
    simp only [OpcodeRow.fits, encode, beq_iff_eq]
    exact (wordXyn_and_selector ..).trans (by decide)⟩
theorem RowMatch.and (x : Reg) (y : Reg) : RowMatch.Statement (.and x y) :=
  ⟨⟨12, 0x8002, 0xF00F⟩, by decide, rfl, by
    simp only [OpcodeRow.fits, encode, beq_iff_eq]
    exact (wordXyn_and_selector ..).trans (by decide)⟩
theorem RowMatch.xor (x : Reg) (y : Reg) : RowMatch.Statement (.xor x y) :=
  ⟨⟨13, 0x8003, 0xF00F⟩, by decide, rfl, by
    simp only [OpcodeRow.fits, encode, beq_iff_eq]
    exact (wordXyn_and_selector ..).trans (by decide)⟩
theorem RowMatch.addReg (x : Reg) (y : Reg) : RowMatch.Statement (.addReg x y) :=
  ⟨⟨14, 0x8004, 0xF00F⟩, by decide, rfl, by
    simp only [OpcodeRow.fits, encode, beq_iff_eq]
    exact (wordXyn_and_selector ..).trans (by decide)⟩
theorem RowMatch.sub (x : Reg) (y : Reg) : RowMatch.Statement (.sub x y) :=
  ⟨⟨15, 0x8005, 0xF00F⟩, by decide, rfl, by
    simp only [OpcodeRow.fits, encode, beq_iff_eq]
    exact (wordXyn_and_selector ..).trans (by decide)⟩
theorem RowMatch.shr (x : Reg) (y : Reg) : RowMatch.Statement (.shr x y) :=
  ⟨⟨16, 0x8006, 0xF00F⟩, by decide, rfl, by
    simp only [OpcodeRow.fits, encode, beq_iff_eq]
    exact (wordXyn_and_selector ..).trans (by decide)⟩
theorem RowMatch.subn (x : Reg) (y : Reg) : RowMatch.Statement (.subn x y) :=
  ⟨⟨17, 0x8007, 0xF00F⟩, by decide, rfl, by
    simp only [OpcodeRow.fits, encode, beq_iff_eq]
    exact (wordXyn_and_selector ..).trans (by decide)⟩
theorem RowMatch.shl (x : Reg) (y : Reg) : RowMatch.Statement (.shl x y) :=
  ⟨⟨18, 0x800E, 0xF00F⟩, by decide, rfl, by
    simp only [OpcodeRow.fits, encode, beq_iff_eq]
    exact (wordXyn_and_selector ..).trans (by decide)⟩
theorem RowMatch.sneReg (x : Reg) (y : Reg) : RowMatch.Statement (.sneReg x y) :=
  ⟨⟨19, 0x9000, 0xF00F⟩, by decide, rfl, by
    simp only [OpcodeRow.fits, encode, beq_iff_eq]
    exact (wordXyn_and_selector ..).trans (by decide)⟩
theorem RowMatch.ldI (nnn : Addr12) : RowMatch.Statement (.ldI nnn) :=
  ⟨⟨20, 0xA000, 0xF000⟩, by decide, rfl, by
    simp only [OpcodeRow.fits, encode, beq_iff_eq]
    exact (wordNnn_and_family ..).trans (by decide)⟩
theorem RowMatch.jpV0 (nnn : Addr12) : RowMatch.Statement (.jpV0 nnn) :=
  ⟨⟨21, 0xB000, 0xF000⟩, by decide, rfl, by
    simp only [OpcodeRow.fits, encode, beq_iff_eq]
    exact (wordNnn_and_family ..).trans (by decide)⟩
theorem RowMatch.rnd (x : Reg) (kk : Byte) : RowMatch.Statement (.rnd x kk) :=
  ⟨⟨22, 0xC000, 0xF000⟩, by decide, rfl, by
    simp only [OpcodeRow.fits, encode, beq_iff_eq]
    exact (wordXkk_and_family ..).trans (by decide)⟩
theorem RowMatch.drw (x : Reg) (y : Reg) (n : Fin 16) : RowMatch.Statement (.drw x y n) :=
  ⟨⟨23, 0xD000, 0xF000⟩, by decide, rfl, by
    simp only [OpcodeRow.fits, encode, beq_iff_eq]
    exact (wordXyn_and_family ..).trans (by decide)⟩
theorem RowMatch.skp (x : Reg) : RowMatch.Statement (.skp x) :=
  ⟨⟨24, 0xE09E, 0xF0FF⟩, by decide, rfl, by
    simp only [OpcodeRow.fits, encode, beq_iff_eq]
    exact (wordXkk_and_selector ..).trans (by decide)⟩
theorem RowMatch.sknp (x : Reg) : RowMatch.Statement (.sknp x) :=
  ⟨⟨25, 0xE0A1, 0xF0FF⟩, by decide, rfl, by
    simp only [OpcodeRow.fits, encode, beq_iff_eq]
    exact (wordXkk_and_selector ..).trans (by decide)⟩
theorem RowMatch.ldVxDt (x : Reg) : RowMatch.Statement (.ldVxDt x) :=
  ⟨⟨26, 0xF007, 0xF0FF⟩, by decide, rfl, by
    simp only [OpcodeRow.fits, encode, beq_iff_eq]
    exact (wordXkk_and_selector ..).trans (by decide)⟩
theorem RowMatch.ldVxK (x : Reg) : RowMatch.Statement (.ldVxK x) :=
  ⟨⟨27, 0xF00A, 0xF0FF⟩, by decide, rfl, by
    simp only [OpcodeRow.fits, encode, beq_iff_eq]
    exact (wordXkk_and_selector ..).trans (by decide)⟩
theorem RowMatch.ldDtVx (x : Reg) : RowMatch.Statement (.ldDtVx x) :=
  ⟨⟨28, 0xF015, 0xF0FF⟩, by decide, rfl, by
    simp only [OpcodeRow.fits, encode, beq_iff_eq]
    exact (wordXkk_and_selector ..).trans (by decide)⟩
theorem RowMatch.ldStVx (x : Reg) : RowMatch.Statement (.ldStVx x) :=
  ⟨⟨29, 0xF018, 0xF0FF⟩, by decide, rfl, by
    simp only [OpcodeRow.fits, encode, beq_iff_eq]
    exact (wordXkk_and_selector ..).trans (by decide)⟩
theorem RowMatch.addIVx (x : Reg) : RowMatch.Statement (.addIVx x) :=
  ⟨⟨30, 0xF01E, 0xF0FF⟩, by decide, rfl, by
    simp only [OpcodeRow.fits, encode, beq_iff_eq]
    exact (wordXkk_and_selector ..).trans (by decide)⟩
theorem RowMatch.ldFVx (x : Reg) : RowMatch.Statement (.ldFVx x) :=
  ⟨⟨31, 0xF029, 0xF0FF⟩, by decide, rfl, by
    simp only [OpcodeRow.fits, encode, beq_iff_eq]
    exact (wordXkk_and_selector ..).trans (by decide)⟩
theorem RowMatch.ldBVx (x : Reg) : RowMatch.Statement (.ldBVx x) :=
  ⟨⟨32, 0xF033, 0xF0FF⟩, by decide, rfl, by
    simp only [OpcodeRow.fits, encode, beq_iff_eq]
    exact (wordXkk_and_selector ..).trans (by decide)⟩
theorem RowMatch.ldMemVx (x : Reg) : RowMatch.Statement (.ldMemVx x) :=
  ⟨⟨33, 0xF055, 0xF0FF⟩, by decide, rfl, by
    simp only [OpcodeRow.fits, encode, beq_iff_eq]
    exact (wordXkk_and_selector ..).trans (by decide)⟩
theorem RowMatch.ldVxMem (x : Reg) : RowMatch.Statement (.ldVxMem x) :=
  ⟨⟨34, 0xF065, 0xF0FF⟩, by decide, rfl, by
    simp only [OpcodeRow.fits, encode, beq_iff_eq]
    exact (wordXkk_and_selector ..).trans (by decide)⟩

end Sys2Proof.Laws
end

