-- ==== Sys2Proof/Tests/Slice0.lean ====
section
/-! SUPPORT. The model's own tests. Every expected value is that of a row of spec/95_test_vectors.md (named in
the docstring) or is written out by hand from the encodings of spec/30_encoding.md R76. The last part holds a
witness for each obligation that has hypotheses. -/

namespace Sys2Proof.Tests

open Sys2Proof Sys2Proof.Machine

/-! Helpers: a reset state with one word at 0x200, a few setters, one step. -/

/-- The reset state with `word` at 0x200. -/
def start (word : Nat) : State := State.reset.withFetchWord 16 word

/-- Bytes in memory from `a` on. -/
def withBytes (a : Nat) (bytes : List Byte) (s : State) : State :=
  s.setMem (Memory.writeAll s.config a bytes s.mem)

/-- One key pressed. -/
def withKey (k : Reg) (s : State) : State := s.setKeys (s.keys.set k.val true k.isLt)

/-- One pixel on. -/
def withPixel (c : Fin 64) (r : Fin 32) (s : State) : State := s.setDisp (s.disp.flip c r)

/-- The state with other parameters. -/
def withConfig (c : Config) (s : State) : State := { s with config := c }

/-- The parameters with the divergent shift and jump. -/
def divergent : Config := { Config.reference with shiftSource := .vy, jumpOffset := .vxXnn }

/-- The state after one step, where there is one. -/
def after (s : State) : Option State :=
  match step s with
  | .next t => some t
  | _ => none

/-- A view of the state after one step. -/
def view {α : Type} (s : State) (f : State → α) : Option α := (after s).map f

/-- `V[x]`, `VF` and `pc`. -/
def regs (x : Reg) (t : State) : Byte × Byte × Word := (t.readV x, t.readV 15, t.pc)

/-- `pc` and `status`. -/
def outcome (t : State) : Word × Status := (t.pc, t.status)

/-! ### WellFormed smoke: an ill-formed term for each check -/

/-- 5xy0 with a nonzero last nibble. -/
theorem test_word_wellFormed_refuses_5121 : Word.wellFormed 0x5121 = false := by decide
/-- 0nnn. -/
theorem test_word_wellFormed_refuses_0123 : Word.wellFormed 0x0123 = false := by decide
/-- Family 8 with a selector that no row has. -/
theorem test_word_wellFormed_refuses_800D : Word.wellFormed 0x800D = false := by decide
theorem test_word_wellFormed_accepts_800E : Word.wellFormed 0x800E = true := by decide
/-- One byte more than fits. -/
theorem test_imageFits_refuses_3585 : imageFits (List.replicate 3585 0) = false := by
  rw [imageFits, List.length_replicate]; decide
theorem test_imageFits_accepts_3584 : imageFits (List.replicate 3584 0) = true := by
  rw [imageFits, List.length_replicate]; decide
theorem test_keyIndexValid_refuses_16 : keyIndexValid 16 = false := by decide
theorem test_instr_wellFormed_accepts_drw : (Instr.drw 15 15 15).wellFormed = true := by decide

/-! ### Decoding, one word written out bit by bit for every row of R76 -/

theorem test_decode_cls : decode 0b0000_0000_1110_0000#16 = .ok .cls := by decide
theorem test_decode_ret : decode 0b0000_0000_1110_1110#16 = .ok .ret := by decide
theorem test_decode_jp : decode 0b0001_1010_1011_1100#16 = .ok (.jp 0xABC) := by decide
theorem test_decode_call : decode 0b0010_1010_1011_1100#16 = .ok (.call 0xABC) := by decide
theorem test_decode_seImm : decode 0b0011_1010_0001_0010#16 = .ok (.seImm 0xA 0x12) := by decide
theorem test_decode_sneImm : decode 0b0100_1010_0001_0010#16 = .ok (.sneImm 0xA 0x12) := by decide
theorem test_decode_seReg : decode 0b0101_0001_0010_0000#16 = .ok (.seReg 1 2) := by decide
theorem test_decode_ldImm : decode 0b0110_1010_0100_0010#16 = .ok (.ldImm 0xA 0x42) := by decide
theorem test_decode_addImm : decode 0b0111_1010_1111_1111#16 = .ok (.addImm 0xA 0xFF) := by decide
theorem test_decode_ldReg : decode 0b1000_0001_0010_0000#16 = .ok (.ldReg 1 2) := by decide
theorem test_decode_or : decode 0b1000_0001_0010_0001#16 = .ok (.or 1 2) := by decide
theorem test_decode_and : decode 0b1000_0001_0010_0010#16 = .ok (.and 1 2) := by decide
theorem test_decode_xor : decode 0b1000_0001_0010_0011#16 = .ok (.xor 1 2) := by decide
theorem test_decode_addReg : decode 0b1000_0001_0010_0100#16 = .ok (.addReg 1 2) := by decide
theorem test_decode_sub : decode 0b1000_0001_0010_0101#16 = .ok (.sub 1 2) := by decide
theorem test_decode_shr : decode 0b1000_0001_0010_0110#16 = .ok (.shr 1 2) := by decide
theorem test_decode_subn : decode 0b1000_0001_0010_0111#16 = .ok (.subn 1 2) := by decide
theorem test_decode_shl : decode 0b1000_0001_0010_1110#16 = .ok (.shl 1 2) := by decide
theorem test_decode_sneReg : decode 0b1001_0001_0010_0000#16 = .ok (.sneReg 1 2) := by decide
theorem test_decode_ldI : decode 0b1010_1111_1111_1110#16 = .ok (.ldI 0xFFE) := by decide
theorem test_decode_jpV0 : decode 0b1011_0011_0000_0001#16 = .ok (.jpV0 0x301) := by decide
theorem test_decode_rnd : decode 0b1100_0011_0000_1111#16 = .ok (.rnd 3 0x0F) := by decide
theorem test_decode_drw : decode 0b1101_0001_0010_0101#16 = .ok (.drw 1 2 5) := by decide
theorem test_decode_skp : decode 0b1110_0101_1001_1110#16 = .ok (.skp 5) := by decide
theorem test_decode_sknp : decode 0b1110_0101_1010_0001#16 = .ok (.sknp 5) := by decide
theorem test_decode_ldVxDt : decode 0b1111_0101_0000_0111#16 = .ok (.ldVxDt 5) := by decide
theorem test_decode_ldVxK : decode 0b1111_0011_0000_1010#16 = .ok (.ldVxK 3) := by decide
theorem test_decode_ldDtVx : decode 0b1111_0101_0001_0101#16 = .ok (.ldDtVx 5) := by decide
theorem test_decode_ldStVx : decode 0b1111_0110_0001_1000#16 = .ok (.ldStVx 6) := by decide
theorem test_decode_addIVx : decode 0b1111_0010_0001_1110#16 = .ok (.addIVx 2) := by decide
theorem test_decode_ldFVx : decode 0b1111_0100_0010_1001#16 = .ok (.ldFVx 4) := by decide
theorem test_decode_ldBVx : decode 0b1111_0101_0011_0011#16 = .ok (.ldBVx 5) := by decide
theorem test_decode_ldMemVx : decode 0b1111_0010_0101_0101#16 = .ok (.ldMemVx 2) := by decide
theorem test_decode_ldVxMem : decode 0b1111_0010_0110_0101#16 = .ok (.ldVxMem 2) := by decide

/-- The unknown words of L2. -/
theorem test_decode_unknown_words :
    ([0x0000, 0x0123, 0x00E1, 0x5121, 0x9121, 0x8008, 0x800D, 0x800F] : List Word).map decode =
      ([0x0000, 0x0123, 0x00E1, 0x5121, 0x9121, 0x8008, 0x800D, 0x800F] : List Word).map
        (.error <| .unknownOpcode ·) := by decide

/-- The unknown words of the families E and F of L2. -/
theorem test_decode_unknown_words_EF :
    ([0xE000, 0xE0A2, 0xF000, 0xF0FF, 0xFFFF] : List Word).map decode =
      ([0xE000, 0xE0A2, 0xF000, 0xF0FF, 0xFFFF] : List Word).map (.error <| .unknownOpcode ·) := by decide

theorem test_decodeBytes_bigEndian : decodeBytes [0x1A, 0xBC, 0x55] = .ok (.jp 0xABC, [0x55]) := by decide
theorem test_decodeBytes_truncated : decodeBytes [0x1A] = .error .truncated := by decide
theorem test_decodeTableWord_ldImm : decodeTableWord 16 0x6A42 = some (.ldImm 0xA 0x42) := by decide
theorem test_decodeTableWord_unknown : decodeTableWord 16 0x5121 = none := by decide

/-! ### Fetch and the cycle (L2) -/

/-- Reset, nothing loaded: `UnknownOpcode(0x0000, 0x200)`. -/
theorem test_reset_step_unknown :
    view State.reset outcome = some (0x200, .faulted (.unknownOpcode 0x0000 0x200)) := by decide

/-- `pc = 0x0FFF`: the second byte of the fetch is at 0x1000. -/
theorem test_fetch_at_0FFF : view (State.reset.setPc 0x0FFF) outcome =
    some (0x0FFF, .faulted (.outOfBounds 0x1000 0x0FFF)) := by decide

/-- `pc = 0x1000`. -/
theorem test_fetch_at_1000 : view (State.reset.setPc 0x1000) outcome =
    some (0x1000, .faulted (.outOfBounds 0x1000 0x1000)) := by decide

/-- `pc = 0x0FFE`: the last whole word is fetchable. -/
theorem test_fetch_at_0FFE :
    view ((State.reset.setPc 0x0FFE).withFetchWord 16 0x1200) outcome = some (0x200, .running) := by decide

/-- An odd `pc`. -/
theorem test_fetch_at_odd_pc :
    view (withBytes 0x201 [0x6A, 0x42] (State.reset.setPc 0x201)) (regs 0xA) = some (0x42, 0, 0x203) := by decide

/-- `Faulted(e)`: the same error again, and nothing changes. -/
theorem test_faulted_repeats :
    stepResult ((start 0x6A42).setStatus (.faulted (.stackUnderflow 0x210))) = some (.stackUnderflow 0x210) ∧
    view ((start 0x6A42).setStatus (.faulted (.stackUnderflow 0x210))) (regs 0xA) = some (0, 0, 0x200) := by
  decide

/-- `Faulted(e)`, then `reset()`. -/
theorem test_reset_clears_fault :
    after ((State.reset.setStatus (.faulted (.stackUnderflow 0x210))).setSchedule [.reset]) =
      some State.reset := by decide

/-! ### Display (L2, S8) -/

/-- CLS with a pixel on. -/
theorem test_cls : view (withPixel 5 6 (start 0x00E0)) (fun t => (t.disp.pixel 5 6, t.pc)) =
    some (false, 0x202) := by decide

/-- S8: at column 63 the sprite wraps to columns 0 to 6. -/
theorem test_drw_wraps_columns :
    view ((withBytes 0x300 [0xFF] (((start 0xD121).writeV 1 63))).setI 0x300) (fun t =>
      ((List.finRange 64).filter fun c => t.disp.pixel c 0, t.readV 15)) =
      some ([0, 1, 2, 3, 4, 5, 6, 63], 0) := by decide

/-- An erased pixel sets `VF`: 0xD002 after 0xD001 over `0x80, 0xC0`. -/
theorem test_drw_erases :
    view (withPixel 0 0 ((withBytes 0x300 [0x80, 0xC0] (start 0xD002)).setI 0x300)) (fun t =>
      (t.disp.pixel 0 0, t.disp.pixel 0 1, t.disp.pixel 1 1, t.disp.pixel 1 0, t.readV 15)) =
      some (false, true, true, false, 1) := by decide

/-- 0xD012 at `I = 0x0FFF` faults, 0xD010 does not. -/
theorem test_drw_past_end :
    view ((start 0xD012).setI 0x0FFF) outcome = some (0x200, .faulted (.outOfBounds 0x1000 0x200)) ∧
    view ((start 0xD010).setI 0x0FFF) outcome = some (0x202, .running) := by decide

/-! ### Control flow (L2) -/

theorem test_jp : view (start 0x1ABC) outcome = some (0xABC, .running) := by decide

theorem test_call : view (start 0x2ABC) (fun t => (t.stack, t.pc)) = some ([0x202], 0xABC) := by decide

theorem test_call_full : view ((start 0x2ABC).setStack (List.replicate 16 0x202)) (fun t =>
    (t.stack, outcome t)) =
    some (List.replicate 16 0x202, 0x200, .faulted (.stackOverflow 0x200)) := by decide

theorem test_ret : view ((start 0x00EE).setStack [0x300, 0x206]) (fun t => (t.stack, t.pc)) =
    some ([0x300], 0x206) := by decide

theorem test_ret_empty : view (start 0x00EE) outcome =
    some (0x200, .faulted (.stackUnderflow 0x200)) := by decide

theorem test_seImm : view ((start 0x3A12).writeV 0xA 0x12) (·.pc) = some 0x204 ∧
    view ((start 0x3A12).writeV 0xA 0x13) (·.pc) = some 0x202 := by decide

theorem test_sneImm : view ((start 0x4A12).writeV 0xA 0x12) (·.pc) = some 0x202 ∧
    view ((start 0x4A12).writeV 0xA 0x13) (·.pc) = some 0x204 := by decide

theorem test_seReg : view (((start 0x5120).writeV 1 7).writeV 2 7) (·.pc) = some 0x204 ∧
    view (((start 0x5120).writeV 1 7).writeV 2 8) (·.pc) = some 0x202 := by decide

theorem test_sneReg : view (((start 0x9120).writeV 1 7).writeV 2 8) (·.pc) = some 0x204 ∧
    view (((start 0x9120).writeV 1 7).writeV 2 7) (·.pc) = some 0x202 := by decide

/-- `V0 = 0xFF`, 0xBFFF: the sum is not masked. -/
theorem test_jpV0 : view ((start 0xBFFF).writeV 0 0xFF) (·.pc) = some 0x10FE := by decide

/-- The `Vx_xnn` form of R147: `V3` is added, not `V0`. -/
theorem test_jpV0_vxXnn :
    view (withConfig divergent (((start 0xB300).writeV 0 0x10).writeV 3 0x21)) (·.pc) = some 0x321 := by decide

/-! ### ALU (L1, L2) -/

theorem test_ldImm : view (start 0x6A42) (regs 0xA) = some (0x42, 0, 0x202) := by decide

/-- S2: no flag register is touched. -/
theorem test_addImm_wraps : view ((start 0x7302).writeV 3 0xFF) (regs 3) = some (0x01, 0, 0x202) := by decide

theorem test_ldReg : view (((start 0x8120).writeV 1 1).writeV 2 0x80) (regs 1) = some (0x80, 0, 0x202) := by
  decide

theorem test_or : view ((((start 0x8121).writeV 1 0x0C).writeV 2 0x0A).writeV 15 7) (regs 1) =
    some (0x0E, 7, 0x202) := by decide

theorem test_and : view (((start 0x8122).writeV 1 0x0C).writeV 2 0x0A) (regs 1) =
    some (0x08, 0, 0x202) := by decide

theorem test_xor : view (((start 0x8123).writeV 1 0x0C).writeV 2 0x0A) (regs 1) =
    some (0x06, 0, 0x202) := by decide

/-- S3. -/
theorem test_addReg_carry : view (((start 0x8124).writeV 1 0xFF).writeV 2 1) (regs 1) =
    some (0, 1, 0x202) := by decide

/-- The flag overwrites the sum when `x = 15`. -/
theorem test_addReg_vf : view (((start 0x8F14).writeV 15 0xFF).writeV 1 1) (regs 1) =
    some (1, 1, 0x202) := by decide

/-- S4. -/
theorem test_sub_borrow : view (((start 0x8125).writeV 1 1).writeV 2 2) (regs 1) =
    some (0xFF, 0, 0x202) := by decide

/-- `V1 = V2 = 5`. -/
theorem test_sub_equal : view (((start 0x8125).writeV 1 5).writeV 2 5) (regs 1) =
    some (0, 1, 0x202) := by decide

theorem test_shr : view ((start 0x8106).writeV 1 5) (regs 1) = some (2, 1, 0x202) := by decide

/-- `x = 15`: the shift reads the flag just written. -/
theorem test_shr_vf : view ((start 0x8F06).writeV 15 3) (·.readV 15) = some 0 := by decide

theorem test_subn : view (((start 0x8127).writeV 1 1).writeV 2 2) (regs 1) = some (1, 1, 0x202) := by decide

/-- `VF = 0x05`, `V1 = 0x01`: there is a borrow. -/
theorem test_subn_vf : view (((start 0x8F17).writeV 15 5).writeV 1 1) (·.readV 15) = some 0 := by decide

theorem test_shl : view ((start 0x810E).writeV 1 0x81) (regs 1) = some (2, 1, 0x202) := by decide

theorem test_shl_vf : view ((start 0x8F0E).writeV 15 0x80) (·.readV 15) = some 2 := by decide

/-- The draw 0xA7 masked with 0x0F is 0x07. -/
theorem test_rnd (h : Config.randomByte 0 = 0xA7) :
    ∃ t, exec (.rnd 3 0x0F) State.reset = .next t ∧ t.readV 3 = 0x07 := by
  refine ⟨_, rfl, ?_⟩
  show (State.writeV _ 3 (Config.randomByte 0 &&& 0x0F)).readV 3 = 0x07
  rw [h]; decide

/-! ### Address register and memory (L2) -/

theorem test_ldI : view (start 0xAFFF) (·.I) = some 0x0FFF := by decide

/-- `I = 0xFFFF`, `V0 = 2` wraps at 2^16. -/
theorem test_addIVx : view (((start 0xF01E).writeV 0 2).setI 0xFFFF) (fun t => (t.I, t.readV 15)) =
    some (1, 0) := by decide

theorem test_ldFVx : view ((start 0xF429).writeV 4 0x1A) (·.I) = some 0x0032 := by decide

theorem test_ldBVx : view (((start 0xF533).writeV 5 0x9C).setI 0x300) (fun t =>
    (t.byteAt 0x300, t.byteAt 0x301, t.byteAt 0x302, t.pc)) = some (1, 5, 6, 0x202) := by decide

theorem test_ldBVx_past_end : view (((start 0xF533).writeV 5 1).setI 0x0FFE) outcome =
    some (0x200, .faulted (.outOfBounds 0x1000 0x200)) := by decide

/-- The state with `V0..V2 = 01 02 03`. -/
def counted (s : State) : State := ((s.writeV 0 1).writeV 1 2).writeV 2 3

theorem test_ldMemVx : view ((counted (start 0xF255)).setI 0x400) (fun t =>
    (t.byteAt 0x400, t.byteAt 0x401, t.byteAt 0x402, t.byteAt 0x403, t.I)) =
    some (1, 2, 3, 0, 0x400) := by decide

/-- `I = 0x0010`: a font byte is overwritten. -/
theorem test_ldMemVx_font : view (((start 0xF055).writeV 0 0xAB).setI 0x10) (·.byteAt 0x10) =
    some 0xAB := by decide

theorem test_ldVxMem : view ((withBytes 0x400 [0x0A, 0x0B, 0x0C] (start 0xF265)).setI 0x400) (fun t =>
    (t.readV 0, t.readV 1, t.readV 2, t.readV 3, t.I)) = some (0x0A, 0x0B, 0x0C, 0, 0x400) := by decide

/-- `I = 0`: the first 16 font bytes, `VF` the first byte of glyph 3. -/
theorem test_ldVxMem_font : view (start 0xFF65) (fun t => (t.readV 5, t.readV 15)) =
    some (0x20, 0xF0) := by decide

/-! ### Input (L2) -/

theorem test_skp : view (withKey 3 ((start 0xE59E).writeV 5 3)) (·.pc) = some 0x204 ∧
    view ((start 0xE59E).writeV 5 3) (·.pc) = some 0x202 := by decide

theorem test_skp_index : view ((start 0xE59E).writeV 5 16) outcome =
    some (0x200, .faulted (.outOfBounds 16 0x200)) := by decide

theorem test_sknp : view (withKey 3 ((start 0xE5A1).writeV 5 3)) (·.pc) = some 0x202 ∧
    view ((start 0xE5A1).writeV 5 3) (·.pc) = some 0x204 := by decide

theorem test_ldVxK : view (start 0xF30A) outcome =
    some (0x200, .awaitingKey 3 (Vector.replicate 16 false)) := by decide

/-- The state that waits in `V3` with the given sample. -/
def waiting (sample : Keys) : State := (start 0xF30A).setStatus (.awaitingKey 3 sample)

/-- No key in the sample. -/
def noKeys : Keys := Vector.replicate 16 false

/-- Key 0xB is pressed since the sample. -/
theorem test_wait_ends : view (withKey 0xB (waiting noKeys)) (fun t => (t.readV 3, outcome t)) =
    some (0x0B, 0x202, .running) := by decide

/-- Key 7 was held at entry and key 9 is pressed: the LOWEST pressed key is written. -/
theorem test_wait_lowest_key :
    view (withKey 9 (withKey 7 (waiting (noKeys.set 7 true)))) (fun t => (t.readV 3, outcome t)) =
      some (7, 0x202, .running) := by decide

/-- A held key does not end the wait. -/
theorem test_wait_held_key : view (withKey 7 (waiting (noKeys.set 7 true))) outcome =
    some (0x200, .awaitingKey 3 (noKeys.set 7 true)) := by decide

/-- `set_key(16, true)` is refused. -/
theorem test_setKey_refused :
    step (State.reset.setSchedule [.setKey 16 true]) = .refused (.keyIndexOutOfRange 16) := rfl

/-! ### Timers and the host (L2) -/

/-- `DT = 3`, `ST = 1`, a tick: the buzz-stop edge. -/
theorem test_tick : view (((State.reset.setDT 3).setST 1).setSchedule [.tick]) (fun t => (t.DT, t.ST)) =
    some (2, 0) ∧ buzzStops (State.reset.setST 1) = true := by decide

theorem test_tick_floor : view (State.reset.setSchedule [.tick]) (fun t => (t.DT, t.ST)) = some (0, 0) := by
  decide

theorem test_ldVxDt : view ((start 0xF507).setDT 0x3C) (regs 5) = some (0x3C, 0, 0x202) := by decide

theorem test_ldDtVx : view ((start 0xF515).writeV 5 0x3C) (fun t => (t.DT, t.ST)) = some (0x3C, 0) := by decide

theorem test_ldStVx : view ((start 0xF618).writeV 6 2) (fun t => (t.ST, buzzing t)) = some (2, true) := by
  decide

/-- The image of program P0 lands at 0x200. -/
theorem test_load : view (State.reset.setSchedule [.load [0x60, 0x05, 0x61]]) (fun t =>
    (t.byteAt 0x200, t.byteAt 0x201, t.byteAt 0x202, t.byteAt 0x203, outcome t)) =
    some (0x60, 0x05, 0x61, 0, 0x200, .running) := by decide

/-- Writing the value that an unlisted address reads as removes its cell. -/
theorem test_write_keeps_canonical_form :
    Memory.write Config.reference 0x300 0 [(0x2FF, 1), (0x300, 5), (0x301, 2)] = [(0x2FF, 1), (0x301, 2)] ∧
    Memory.write Config.reference 0 0xF0 [(0, 1)] = [] := by decide

/-- The codes of R240. -/
theorem test_faultCodes : [Fault.stackOverflow 0, .stackUnderflow 0, .outOfBounds 0 0, .unknownOpcode 0 0].map
    faultCode = [1, 2, 3, 4] := by decide

/-! ### Witnesses: states and operands that meet the hypotheses of each obligation

A clause whose hypothesis is only a comparison of register indices (`x ≠ 15`) is met by the indices of
`witness_register_indices`. -/

/-- The reset state with `I = v`. -/
def atI (v : Word) : State := State.reset.setI v

/-- Indices that are, and are not, 15, the destination, and each other. -/
theorem witness_register_indices :
    ∃ x y r : Reg, x ≠ 15 ∧ r ≠ x ∧ r ≠ 15 ∧ x = y ∧ (15 : Reg) = 15 ∧ x < r ∧ r ≠ y := ⟨1, 1, 2, by decide⟩

/-- `n = 0` at any `I`, and the last byte of memory as the whole sprite. -/
theorem witness_DrwXorsSpriteOntoDisplay :
    ((0 : Fin 16) = 0 ∨ (atI 0xFFFF).I.toNat + (0 : Fin 16).val ≤ 4096) ∧
    ((1 : Fin 16) = 0 ∨ (atI 0x0FFF).I.toNat + (1 : Fin 16).val ≤ 4096) := by decide

/-- Glyph 0 at (0, 0) covers pixel (0, 0), off or on, and does not cover pixel (1, 1). -/
theorem witness_DrwXorsSpriteOntoDisplay_pixels :
    State.reset.spriteCovers 0 0 5 0 0 ∧ ¬ State.reset.spriteCovers 0 0 5 1 1 ∧
    (∃ c r, (withPixel 0 0 State.reset).spriteCovers 0 0 5 c r ∧
      (withPixel 0 0 State.reset).disp.pixel c r = true) ∧
    (¬ ∃ c r, State.reset.spriteCovers 0 0 5 c r ∧ State.reset.disp.pixel c r = true) := by
  refine ⟨?_, ?_, ⟨0, 0, ?_, by decide⟩, ?_⟩
  · unfold State.spriteCovers; decide
  · unfold State.spriteCovers; decide
  · unfold State.spriteCovers; decide
  · rintro ⟨c, r, -, h⟩
    simp [State.reset, State.initial, Display.pixel, Vector.get_eq_getElem] at h

/-- Row 0 of glyph 1 is one pixel, at column 2. -/
theorem glyphOneTop_covers (s : State) (hI : s.I = 5) (hm : s.byteAt 5 = 0x20) (h0 : s.readV 0 = 0)
    (c : Fin 64) (r : Fin 32) (h : s.spriteCovers 0 0 1 c r) : c = 2 ∧ r = 0 := by
  obtain ⟨i, hi, j, hj, hb, hc, hr⟩ := h
  obtain rfl : i = 0 := by omega
  simp only [hI, h0] at hb hc hr
  rw [show (5 : Word).toNat + 0 = 5 from rfl, hm] at hb
  have hj2 : j = 2 := by
    clear hc
    revert j
    decide
  subst hj2
  exact ⟨Fin.ext hc, Fin.ext hr⟩

/-- Two draws of one pixel that was off, and of one that was on. -/
theorem witness_DrwTwiceRestoresDisplay :
    (∃ t u, exec (.drw 0 0 1) (atI 5) = .next t ∧ t.readV 0 = (atI 5).readV 0 ∧
      exec (.drw 0 0 1) t = .next u ∧
      ∃ c r, (atI 5).spriteCovers 0 0 1 c r ∧ (atI 5).disp.pixel c r = false) ∧
    (∃ t u, exec (.drw 0 0 1) (withPixel 2 0 (atI 5)) = .next t ∧ t.readV 0 = (atI 5).readV 0 ∧
      exec (.drw 0 0 1) t = .next u ∧
      ¬ ∃ c r, (withPixel 2 0 (atI 5)).spriteCovers 0 0 1 c r ∧
        (withPixel 2 0 (atI 5)).disp.pixel c r = false) := by
  refine ⟨⟨_, _, rfl, by decide, rfl, 2, 0, ?_, by decide⟩, ⟨_, _, rfl, by decide, rfl, ?_⟩⟩
  · unfold State.spriteCovers; decide
  · rintro ⟨c, r, hc, hp⟩
    obtain ⟨rfl, rfl⟩ := glyphOneTop_covers _ (by decide) (by decide) (by decide) c r hc
    revert hp; decide

/-- The first `I` of each clause whose range passes 4095, and a far one. -/
theorem witness_MemoryTransferPastEndFaults :
    ((1 : Fin 16) ≠ 0 ∧ 4096 < (atI 0x1000).I.toNat + (1 : Fin 16).val) ∧
    ((15 : Fin 16) ≠ 0 ∧ 4096 < (atI 0x0FF2).I.toNat + (15 : Fin 16).val) ∧
    4096 < (atI 0x0FFE).I.toNat + 3 ∧ 4096 < (atI 0x1000).I.toNat + (0 : Reg).val + 1 ∧
    4096 < (atI 0x0FF1).I.toNat + (15 : Reg).val + 1 ∧ 4096 < (atI 0xFFFF).I.toNat + (0 : Reg).val + 1 := by
  decide

theorem witness_RetPopsReturnAddress :
    ((State.reset.setStack [0x300, 0x206]).stack = [0x300] ++ [0x206]) ∧ State.reset.stack = [] := by decide

/-- One below capacity, at capacity, and unbounded. -/
theorem witness_CallPushesReturnAddress :
    ((State.reset.setStack (List.replicate 15 0x202)).config.stackCapacity ≠
      some (State.reset.setStack (List.replicate 15 0x202)).stack.length) ∧
    ((State.reset.setStack (List.replicate 16 0x202)).config.stackCapacity =
      some (State.reset.setStack (List.replicate 16 0x202)).stack.length) ∧
    (withConfig { Config.reference with stackCapacity := none } State.reset).config.stackCapacity = none := by
  decide

theorem witness_JpSetsPc : (0xFFF : Addr12) = 0xFFF ∧ (0x200 : Addr12).toNat = State.reset.pc.toNat := by decide

/-- Both forms of the jump, the indices 0 and 15 among the `Vx_xnn` ones. -/
theorem witness_JpV0AddsExactly :
    State.reset.config.jumpOffset = .v0Addr ∧ (withConfig divergent State.reset).config.jumpOffset = .vxXnn ∧
    (0 : Reg).val = (0x0FF : Addr12).toNat / 256 ∧ (15 : Reg).val = (0xFFF : Addr12).toNat / 256 := by decide

/-- Both forms of the shifts, with `z` 15 and not 15. -/
theorem witness_ShiftsWriteFlagFirst :
    (∀ z ∈ ([1, 15] : List Reg), (State.reset.config.shiftSource = .vx → z = z) ∧
      (State.reset.config.shiftSource = .vy → z = 2)) ∧
    (∀ z ∈ ([1, 15] : List Reg), ((withConfig divergent State.reset).config.shiftSource = .vx → z = 3) ∧
      ((withConfig divergent State.reset).config.shiftSource = .vy → z = z)) := by decide

/-- The last places of three and of sixteen bytes, and addresses inside and around them. -/
theorem witness_LdBVxStoresDecimalDigits :
    baseAddress (atI 0x0FFD) + 3 ≤ 4096 ∧ (0x0FFC < baseAddress (atI 0x0FFD)) ∧
    baseAddress (atI 0x0FFD) + 3 ≤ 4096 := by decide

theorem witness_LdMemVxStoresRegisters :
    baseAddress (atI 0x0FF0) + (15 : Reg).val + 1 ≤ 4096 ∧ (15 : Reg) ≤ 15 ∧
    (0x0FEF < baseAddress (atI 0x0FF0)) ∧ baseAddress (atI 0x300) + (0 : Reg).val + 1 ≤ 0x301 := by decide

theorem witness_LdVxMemLoadsRegisters :
    baseAddress (atI 0x0FF0) + (15 : Reg).val + 1 ≤ 4096 ∧ baseAddress (atI 0x0FFF) + (0 : Reg).val + 1 ≤ 4096 ∧
    (0 : Reg) ≤ 0 ∧ (0 : Reg) < 1 := by decide

theorem witness_KeySkipsTestTheKey :
    (State.reset.readV 5).toNat = (0 : Reg).val ∧ ((State.reset.writeV 5 15).readV 5).toNat = (15 : Reg).val := by
  decide

theorem witness_KeyIndexAboveFifteenFaults :
    16 ≤ ((State.reset.writeV 5 16).readV 5).toNat ∧ 16 ≤ ((State.reset.writeV 5 0xFF).readV 5).toNat := by decide

/-- A wait with a key pressed since its sample, and one with only a held key. -/
theorem witness_KeyWaitPoll :
    ((withKey 15 (waiting noKeys)).status = .awaitingKey 3 noKeys ∧
      (withKey 15 (waiting noKeys)).schedule = [] ∧
      ∃ j : Reg, (withKey 15 (waiting noKeys)).keys.get j = true ∧ noKeys.get j = false) ∧
    ((withKey 7 (waiting (noKeys.set 7 true))).status = .awaitingKey 3 (noKeys.set 7 true) ∧
      (withKey 7 (waiting (noKeys.set 7 true))).schedule = [] ∧
      ¬ ∃ j : Reg, (withKey 7 (waiting (noKeys.set 7 true))).keys.get j = true ∧
        (noKeys.set 7 true : Keys).get j = false) := by decide

theorem witness_LdDtVxSetsDelayTimer : State.reset.readV 5 = 0 := by decide

theorem witness_LdStVxSetsSoundTimer :
    State.reset.readV 6 = 0 ∧ (State.reset.writeV 6 1).readV 6 = 1 := by decide

theorem witness_TickCountsBothTimersDown :
    (State.reset.setSchedule [.tick, .step]).schedule = .tick :: [.step] := by decide

/-- A full stack, one with room, an empty one, and a push that succeeds. -/
theorem witness_PushAndPopAreLastInFirstOut :
    (∃ n, State.reset.config.stackCapacity = some n ∧ (State.reset.setStack (List.replicate 16 0)).stack.length = n) ∧
    (∀ n, State.reset.config.stackCapacity = some n → (State.reset.setStack (List.replicate 15 0)).stack.length ≠ n) ∧
    State.reset.stack = [] ∧ push State.reset 0x300 = .ok [0x300] := by
  refine ⟨⟨16, by decide, by decide⟩, fun n h => ?_, by decide, by decide⟩
  obtain rfl : 16 = n := by simpa [State.reset, State.initial, Config.reference] using h
  decide

theorem witness_MemReadIsRangeChecked : 4096 ≤ 4096 ∧ 4095 < 4096 := by decide

/-- The last two bytes, and one byte too many. -/
theorem witness_MemWriteAllOrNothing :
    ([1, 2] : List Byte) ≠ [] ∧ 4094 + ([1, 2] : List Byte).length ≤ 4096 ∧
    4096 < 4095 + ([1, 2] : List Byte).length ∧ Memory.wf State.reset.config State.reset.mem ∧
    (1 < ([1, 2] : List Byte).length) ∧ 4093 < 4094 := by
  refine ⟨by decide, by decide, by decide, Memory.wf_nil _, by decide, by decide⟩

theorem witness_FetchIsBigEndianAndRangeChecked :
    (State.reset.setPc 0x0FFE).pc.toNat < 4095 ∧ (State.reset.setPc 0x0FFF).pc.toNat = 4095 ∧
    4096 ≤ (State.reset.setPc 0x1000).pc.toNat := by decide

theorem witness_StepRunsDecodedInstruction :
    (start 0x6A42).ready ∧ (start 0x6A42).pc.toNat + 1 < 4096 ∧
    decode ((start 0x6A42).wordAt (start 0x6A42).pc.toNat) = .ok (.ldImm 0xA 0x42) ∧
    decodeTableWord 16 0x6A42 = some (.ldImm 0xA 0x42) := by
  refine ⟨⟨by decide, by decide⟩, by decide, by decide, by decide⟩

/-- A scheduled `step()` before a tick, on a running interpreter. -/
theorem witness_StepRunsDecodedInstruction_scheduled :
    let s := (start 0x6A42).setSchedule [.step, .tick]
    s.schedule = .step :: [.tick] ∧ s.status = .running ∧ s.pc.toNat + 1 < 4096 ∧
    decode (s.wordAt s.pc.toNat) = .ok (.ldImm 0xA 0x42) := by
  refine ⟨by decide, by decide, by decide, by decide⟩

/-- A scheduled instruction, a scheduled poll of a key wait and a scheduled repeat of an error. -/
theorem witness_ScheduledStepActsLikeUnscheduled :
    ∀ s ∈ [start 0x6A42, waiting noKeys, State.reset.setStatus (.faulted (.stackUnderflow 0x200))],
      (s.setSchedule [.step, .tick]).schedule = .step :: [.tick] ∧
      ∃ t, step ((s.setSchedule [.step, .tick]).setSchedule []) = .next t := by
  simp only [List.mem_cons, List.not_mem_nil, or_false]
  rintro s (rfl | rfl | rfl) <;> exact ⟨rfl, _, rfl⟩

theorem witness_FetchAndDecodeErrorsFault :
    ((State.reset.setPc 0x0FFF).ready ∧ 4095 ≤ (State.reset.setPc 0x0FFF).pc.toNat) ∧
    ((start 0x5121).ready ∧ (start 0x5121).pc.toNat < 4095 ∧
      (start 0x5121).wordAt (start 0x5121).pc.toNat = 0x5121 ∧ Word.wellFormed 0x5121 = false) := by
  refine ⟨⟨⟨by decide, by decide⟩, by decide⟩, ⟨by decide, by decide⟩, by decide, by decide, by decide⟩

/-- A halted interpreter that is stepped, and one that is reset. -/
theorem witness_FaultedStepRepeatsTheError :
    let e : Fault := .stackUnderflow 0x200
    let s := State.reset.setStatus (.faulted e)
    (s.status = .faulted e ∧ s.schedule = []) ∧
    ((s.setSchedule [.reset]).status = .faulted e ∧ ∃ t, step (s.setSchedule [.reset]) = .next t ∧
      t.status ≠ .faulted e) := by
  refine ⟨by decide, by decide, _, rfl, by decide⟩

theorem witness_EncodeOfDecode : decode 0x8124 = .ok (.addReg 1 2) := by decide

/-- A word that fits a row and is decoded, and a word that fits none. -/
theorem witness_DecoderAgreesWithOpcodeTable :
    decode 0x8124 = .ok (.addReg 1 2) ∧ (⟨14, 0x8004, 0xF00F⟩ : OpcodeRow) ∈ opcodeRows ∧
    (⟨14, 0x8004, 0xF00F⟩ : OpcodeRow).fits 0x8124 = true ∧ Word.wellFormed 0x8124 = true ∧
    Word.wellFormed 0x8128 = false := by decide

/-- The state of every witness below that takes a step: reset with a program word at 0x200 meets `Inv`. -/
theorem witness_Inv (w : Nat) : (start w).Inv where
  pcBounded := by show (0x200 : Word).toNat ≤ 0x10FE; decide
  stackBounded := by intro n _; exact Nat.zero_le n
  returnsBounded := by intro v hv; exact absurd hv (by simp [start, State.withFetchWord, placeWord,
    State.reset, State.initial, State.setMem, State.setSchedule, State.setStatus, State.setPc])
  waitsAtFetched := by intro x sample _; show (0x200 : Word).toNat + 2 ≤ 4096; decide
  memoryWf := Memory.wf_writeAll _ (Memory.wf_nil _) (by
    show (0x200 : Word).toNat + 2 ≤ 4096; decide)

theorem witness_StepKeepsInv : (start 0xBFFF).Inv ∧ ∃ t, step (start 0xBFFF) = .next t :=
  ⟨witness_Inv _, _, rfl⟩

/-- A run of one tick from construction. -/
theorem witness_PcNeverExceedsBound :
    ∃ s, State.reaches ((State.initial Config.reference).setSchedule [.tick]) s :=
  ⟨_, .move (.refl _) rfl⟩

/-- The one refused move. -/
theorem witness_StepAlwaysAnswers : ∃ k pressed rest,
    (State.reset.setSchedule [.setKey 16 true]).schedule = .setKey k pressed :: rest ∧ 16 ≤ k :=
  ⟨16, true, [], rfl, by decide⟩

/-- A completed, a faulted and a waiting instruction. -/
theorem witness_InstructionsLeaveHostStateAlone :
    (∃ t, exec (.ldImm 1 2) State.reset = .next t) ∧ (∃ t, exec .ret State.reset = .next t) ∧
    (∃ t, exec (.ldVxK 1) State.reset = .next t) := ⟨⟨_, rfl⟩, ⟨_, rfl⟩, ⟨_, rfl⟩⟩

/-- A step that changes the display: CLS with a pixel on. -/
theorem witness_DisplayHasThreeWriters :
    ∃ t, step (withPixel 5 6 (start 0x00E0)) = .next t ∧ t.disp ≠ (withPixel 5 6 (start 0x00E0)).disp := by
  refine ⟨_, rfl, fun h => ?_⟩
  have := congrArg (fun d : Display => d.pixel 5 6) h
  revert this; decide

/-- A scheduled step that changes the display, and a reset that does. -/
theorem witness_DisplayHasThreeWriters_scheduled :
    ∀ m ∈ [Move.step, .reset],
      ∃ t, step ((withPixel 5 6 (start 0x00E0)).setSchedule [m]) = .next t ∧ t.disp.pixel 5 6 = false ∧
        ((withPixel 5 6 (start 0x00E0)).setSchedule [m]).disp.pixel 5 6 = true := by
  simp only [List.mem_cons, List.not_mem_nil, or_false]
  rintro m (rfl | rfl) <;> exact ⟨_, rfl, by decide, by decide⟩

/-- The last pixel of the snapshot. -/
theorem witness_DisplayHasThreeWriters_snapshot :
    (2047 : Fin 2048).val = (31 : Fin 32).val * 64 + (63 : Fin 64).val := by decide

/-- One instruction that changes each of the six kinds of state. -/
theorem witness_EachStateHasItsWriters :
    (∃ t, exec (.call 0x300) State.reset = .next t ∧ t.stack ≠ State.reset.stack) ∧
    (∃ t, exec (.ldI 0x300) State.reset = .next t ∧ t.I ≠ State.reset.I) ∧
    (∃ t, exec (.ldDtVx 1) (State.reset.writeV 1 9) = .next t ∧ t.DT ≠ (State.reset.writeV 1 9).DT) ∧
    (∃ t, exec (.ldStVx 1) (State.reset.writeV 1 9) = .next t ∧ t.ST ≠ (State.reset.writeV 1 9).ST) ∧
    (∃ t, exec (.ldMemVx 0) State.reset = .next t ∧ ∃ a, t.byteAt a ≠ State.reset.byteAt a) ∧
    (∃ t, exec (.rnd 1 0) State.reset = .next t ∧ t.draws ≠ State.reset.draws) := by
  refine ⟨⟨_, rfl, by decide⟩, ⟨_, rfl, by decide⟩, ⟨_, rfl, by decide⟩, ⟨_, rfl, by decide⟩,
    ⟨_, rfl, 0, by decide⟩, ⟨_, rfl, by decide⟩⟩

theorem witness_RegisterWriters :
    (∃ t, exec (.ldImm 1 2) State.reset = .next t ∧ t.readV 1 ≠ State.reset.readV 1) ∧
    (∃ t, exec (.sub 1 2) State.reset = .next t ∧ t.readV 15 ≠ State.reset.readV 15) := by
  refine ⟨⟨_, rfl, by decide⟩, ⟨_, rfl, by decide⟩⟩

/-- A completed and a faulted instruction that names no timer. -/
theorem witness_TicksCommuteWithInstructions :
    ((∀ x, Instr.ret ≠ .ldVxDt x) ∧ (∀ x, Instr.ret ≠ .ldDtVx x) ∧ (∀ x, Instr.ret ≠ .ldStVx x) ∧
      ∃ t, exec .ret State.reset = .next t) ∧
    ((∀ x, Instr.addIVx 1 ≠ .ldVxDt x) ∧ (∀ x, Instr.addIVx 1 ≠ .ldDtVx x) ∧
      (∀ x, Instr.addIVx 1 ≠ .ldStVx x) ∧ ∃ t, exec (.addIVx 1) State.reset = .next t) := by
  refine ⟨⟨?_, ?_, ?_, _, rfl⟩, ⟨?_, ?_, ?_, _, rfl⟩⟩ <;> intro x h <;> cases h

theorem witness_SoundTimerIsUnread : ∃ t, exec (.addReg 1 2) State.reset = .next t := ⟨_, rfl⟩

/-- A halted state that is reset, with addresses in and after the font. -/
theorem witness_ResetRestoresResetState :
    ((State.reset.setStatus (.faulted (.stackUnderflow 0x200))).setSchedule [.reset, .step]).schedule =
      .reset :: [.step] ∧ 79 < 80 ∧ 80 ≤ 80 := by decide

/-- The longest image that fits, and the shortest that does not. -/
theorem witness_LoadWritesTheImageOnly :
    ((State.reset.setSchedule [.load (List.replicate 3584 1)]).schedule = .load (List.replicate 3584 1) :: [] ∧
      (List.replicate 3584 (1 : Byte)).length ≤ 3584) ∧
    ((State.reset.setSchedule [.load (List.replicate 3585 1)]).schedule = .load (List.replicate 3585 1) :: [] ∧
      3584 < (List.replicate 3585 (1 : Byte)).length) := by
  refine ⟨⟨rfl, List.length_replicate.le⟩, ⟨rfl, ?_⟩⟩
  rw [List.length_replicate]
  decide

theorem witness_SetKeyWritesOneKey :
    (State.reset.setSchedule [.setKey 15 true]).schedule = .setKey 15 true :: [] ∧ 15 < 16 ∧
    (State.reset.setSchedule [.setKey 16 true]).schedule = .setKey 16 true :: [] ∧ 16 ≤ 16 ∧
    (0 : Reg).val ≠ 15 := by decide

/-- The last word of memory, stored by `V0` and `V1`. -/
theorem witness_StoredCodeIsFetched :
    baseAddress (atI 0x0FFE) + (1 : Reg).val + 1 ≤ 4096 ∧ (∃ t, exec (.ldMemVx 1) (atI 0x0FFE) = .next t) ∧
    (0 : Reg).val + 1 = (1 : Reg).val ∧ (1 : Reg) ≤ 1 ∧
    (0x0FFE : Word).toNat = baseAddress (atI 0x0FFE) + (0 : Reg).val := by
  refine ⟨by decide, ⟨_, rfl⟩, by decide, by decide, by decide⟩

/-- One next state for each of the nine instructions of the statement. -/
theorem witness_RegisterAndSkipFrames :
    (∀ i ∈ ([.ldImm 1 2, .addImm 1 2, .ldReg 1 2, .ldVxDt 1] : List Instr), ∃ t, exec i State.reset = .next t) ∧
    (∀ i ∈ ([.seImm 1 2, .sneImm 1 2, .seReg 1 2, .sneReg 1 2, .jp 0xFFF] : List Instr),
      ∃ t, exec i State.reset = .next t) := by
  simp only [List.mem_cons, List.not_mem_nil, or_false]
  refine ⟨?_, ?_⟩
  · rintro i (rfl | rfl | rfl | rfl) <;> exact ⟨_, rfl⟩
  · rintro i (rfl | rfl | rfl | rfl | rfl) <;> exact ⟨_, rfl⟩

theorem witness_SpecialDestinationFrames :
    (∃ t, exec (.ldI 0xFFF) State.reset = .next t) ∧ (∃ t, exec (.ldDtVx 1) State.reset = .next t) ∧
    (∃ t, exec (.ldStVx 1) State.reset = .next t) ∧ (∃ t, exec .cls State.reset = .next t) :=
  ⟨⟨_, rfl⟩, ⟨_, rfl⟩, ⟨_, rfl⟩, ⟨_, rfl⟩⟩

end Sys2Proof.Tests
end

/-! SUPPORT. `Push` and `Pop` (spec/10_state.md R28, R29): an equation for each outcome, read off `push_cases` and
`pop_cases`, and the obligation assembled from them. -/
namespace Sys2Proof.Machine

theorem push_of_full {s : State} (v : Word) (h : s.config.stackCapacity = some s.stack.length) :
    push s v = .error (.stackOverflow s.pc) :=
  (push_cases s v).elim And.right fun hroom => absurd h hroom.1

theorem push_of_room {s : State} (v : Word) (h : s.config.stackCapacity ≠ some s.stack.length) :
    push s v = .ok (s.stack ++ [v]) :=
  (push_cases s v).elim (fun hfull => absurd hfull.1 h) And.right

theorem stack_append_of_push_ok {s : State} {v : Word} {l : List Word} (h : push s v = .ok l) :
    l = s.stack ++ [v] := by
  rcases push_cases s v with ⟨-, hp⟩ | ⟨-, hp⟩
  · cases hp.symm.trans h
  · exact (Except.ok.inj (hp.symm.trans h)).symm

theorem pop_of_empty {s : State} (h : s.stack = []) : pop s = .error (.stackUnderflow s.pc) := by
  rcases pop_cases s with ⟨-, hp⟩ | ⟨rest, v, hs, -⟩
  · exact hp
  · simp [h] at hs

theorem pop_of_append {s : State} {rest : List Word} {v : Word} (h : s.stack = rest ++ [v]) :
    pop s = .ok (v, rest) := by
  rcases pop_cases s with ⟨hs, -⟩ | ⟨rest', v', hs, hp⟩
  · simp [hs] at h
  · obtain ⟨rfl, rfl⟩ : rest' = rest ∧ v' = v := by simpa using hs.symm.trans h
    exact hp

/-- Settles O33: each clause is the equation of one outcome; the last in is the first out because a successful
push leaves `s.stack ++ [v]`, whose last entry a pop takes off. -/
theorem pushAndPopAreLastInFirstOut : Obligations.PushAndPopAreLastInFirstOut := by
  refine ⟨fun s v n hcap hlen => ?overflow, fun s v hroom => ?append, fun s => pop_of_empty,
    fun s v l hpush => ?lastInFirstOut⟩
  case overflow => exact push_of_full v (by rw [hcap, hlen])
  case append => exact push_of_room v fun hcap => hroom _ hcap rfl
  case lastInFirstOut => exact pop_of_append (stack_append_of_push_ok hpush)

end Sys2Proof.Machine

/-! SUPPORT. `MemRead` of one byte (spec/20_memory.md R51). -/
namespace Sys2Proof.Machine

/-- Settles O34: the range check has two outcomes, and `memRead_error` and `memRead_ok` say what each answers. -/
theorem memReadIsRangeChecked : Obligations.MemReadIsRangeChecked :=
  fun s _ => ⟨memRead_error s, memRead_ok s⟩

end Sys2Proof.Machine

/-! SUPPORT. A decoded word is the word of its instruction (spec/30_encoding.md R76, R77): no instruction is read from
two words. One lemma per family that selects by a further field, then the decoder. -/
namespace Sys2Proof

theorem wordXkk_of_fields {w : Word} {op : BitVec 4} {kk : Byte} (hop : fieldOp w = op) (hkk : fieldKk w = kk) :
    wordXkk op (fieldX w) kk = w := by
  rw [← hop, ← hkk, wordXkk_fields]

theorem wordXyn_of_fields {w : Word} {op : BitVec 4} {n : Fin 16} (hop : fieldOp w = op) (hn : fieldN w = n) :
    wordXyn op (fieldX w) (fieldY w) n = w := by
  rw [← hop, ← hn, wordXyn_fields]

theorem wordNnn_of_fields {w : Word} {op : BitVec 4} (hop : fieldOp w = op) : wordNnn op (fieldNnn w) = w := by
  rw [← hop, wordNnn_fields]

theorem encode_of_decodeFixed {w : Word} {i : Instr} (h : decodeFixed w = .ok i) : encode i = w := by
  unfold decodeFixed at h
  split at h
  · next hw => cases h; exact hw.symm
  · split at h
    · next hw => cases h; exact hw.symm
    · cases h

theorem encode_of_decodeAlu {w : Word} {i : Instr} (hop : fieldOp w = 0x8#4) (h : decodeAlu w = .ok i) :
    encode i = w := by
  unfold decodeAlu at h
  split at h <;> cases h <;> exact wordXyn_of_fields hop ‹_›

theorem encode_of_decodeKey {w : Word} {i : Instr} (hop : fieldOp w = 0xE#4) (h : decodeKey w = .ok i) :
    encode i = w := by
  unfold decodeKey at h
  split at h <;> cases h <;> exact wordXkk_of_fields hop ‹_›

theorem encode_of_decodeMisc {w : Word} {i : Instr} (hop : fieldOp w = 0xF#4) (h : decodeMisc w = .ok i) :
    encode i = w := by
  unfold decodeMisc at h
  split at h <;> cases h <;> exact wordXkk_of_fields hop ‹_›

/-- The word an instruction was decoded from is its encoding; the cases are the sixteen families of R71. -/
theorem encode_of_decode {w : Word} {i : Instr} (h : decode w = .ok i) : encode i = w := by
  unfold decode at h
  split at h <;> rename_i hop
  case h_1 => exact encode_of_decodeFixed h
  case h_6 | h_10 =>
    split at h
    · next hn => cases h; exact wordXyn_of_fields hop hn
    · cases h
  case h_9 => exact encode_of_decodeAlu hop h
  case h_15 => exact encode_of_decodeKey hop h
  case h_16 => exact encode_of_decodeMisc hop h
  case h_17 => cases h
  case h_2 | h_3 | h_11 | h_12 => cases h; exact wordNnn_of_fields hop
  case h_4 | h_5 | h_7 | h_8 | h_13 => cases h; exact wordXkk_of_fields hop rfl
  case h_14 => cases h; exact wordXyn_of_fields hop rfl

end Sys2Proof

/-! SUPPORT. 00E0 (spec/41_display.md R130). -/
namespace Sys2Proof.Machine

theorem decode_eq_cls_iff (w : Word) : decode w = .ok .cls ↔ w = 0x00E0 := by
  constructor
  · exact fun h => (encode_of_decode h).symm
  · rintro rfl
    decide

theorem exec_cls (s : State) : exec .cls s = .next (s.advance.setDisp Display.clear) := rfl

/-- Settles O1: CLS is read from its one encoding alone, and its next state is the state past the word with the
display cleared. -/
theorem clsTurnsEveryPixelOff : Obligations.ClsTurnsEveryPixelOff := by
  refine ⟨decode_eq_cls_iff, fun s => ⟨_, exec_cls s, ?pixels, ?flag, ?pc, ?status⟩⟩
  case pixels => exact pixel_clear
  case flag => rw [readV_setDisp, readV_advance]
  case pc => rw [State.setDisp_pc, State.advance_pc]
  case status => rw [State.setDisp_status, State.advance_status]

end Sys2Proof.Machine

/-! SUPPORT. 1nnn (spec/42_control_flow.md R141): the decoded word, the next state, and the two targets that the rule
names, the last byte of memory and the jump's own address. -/
namespace Sys2Proof.Machine

theorem decode_wordNnn_jp (nnn : Addr12) : decode (wordNnn 0x1 nnn) = .ok (.jp nnn) := by
  simp [decode]

theorem exec_jp (nnn : Addr12) (s : State) : exec (.jp nnn) s = .next (s.setPc (addrOperand nnn)) := rfl

/-- A word at the last byte of memory has its second byte past the end (R104). -/
theorem fetch_setPc_lastByte (s : State) : fetch (s.setPc 0xFFF) = .error (.outOfBounds 4096 0xFFF) :=
  fetch_error (s.setPc 0xFFF) (show 4096 ≤ (0xFFF : Word).toNat + 1 by decide)

theorem setPc_addrOperand_self {nnn : Addr12} {s : State} (h : nnn.toNat = s.pc.toNat) :
    s.setPc (addrOperand nnn) = s := by
  have hpc : addrOperand nnn = s.pc := BitVec.eq_of_toNat_eq ((addrOperand_toNat nnn).trans h)
  rw [hpc]
  rfl

/-- Settles O7: JP is one update of the pc; no whole word stands at the target 0xFFF, and the update writes nothing new
when the target is the jump's own address. -/
theorem jpSetsPc : Obligations.JpSetsPc := by
  refine ⟨decode_wordNnn_jp, fun nnn s => ⟨_, exec_jp nnn s, ?target, ?flag, ?status, ?lastByte, ?self⟩⟩
  case target => rw [State.setPc_pc, addrOperand_toNat]
  case flag => rw [readV_setPc]
  case status => rw [State.setPc_status]
  case lastByte =>
    rintro rfl
    exact fetch_setPc_lastByte s
  case self => exact setPc_addrOperand_self

end Sys2Proof.Machine

/-! SUPPORT. The skips 3xkk, 4xkk, 5xy0 and 9xy0 (spec/42_control_flow.md R143 to R146): their words, their next states,
and what every conditional skip does, from which both obligations are read off. -/
namespace Sys2Proof.Machine

/-! The words, decoded through their fields (the simp lemmas of `Laws/Decode`). -/

theorem decode_wordXkk_seImm (x : Reg) (kk : Byte) : decode (wordXkk 0x3 x kk) = .ok (.seImm x kk) := by
  simp [decode]

theorem decode_wordXkk_sneImm (x : Reg) (kk : Byte) : decode (wordXkk 0x4 x kk) = .ok (.sneImm x kk) := by
  simp [decode]

/-- Family 5 holds SE on registers at the low nibble 0, and no other instruction (R77). -/
theorem decode_wordXyn_seReg (x y n : Fin 16) : decode (wordXyn 0x5 x y n) =
    if n = 0 then .ok (.seReg x y) else .error (.unknownOpcode (wordXyn 0x5 x y n)) := by
  simp [decode]

/-- Family 9 holds SNE on registers at the low nibble 0, and no other instruction (R77). -/
theorem decode_wordXyn_sneReg (x y n : Fin 16) : decode (wordXyn 0x9 x y n) =
    if n = 0 then .ok (.sneReg x y) else .error (.unknownOpcode (wordXyn 0x9 x y n)) := by
  simp [decode]

/-! The next states. -/

theorem exec_seImm (x : Reg) (kk : Byte) (s : State) :
    exec (.seImm x kk) s = .next (s.advanceSkipIf (decide (s.readV x = kk))) := rfl

theorem exec_sneImm (x : Reg) (kk : Byte) (s : State) :
    exec (.sneImm x kk) s = .next (s.advanceSkipIf (decide (¬ s.readV x = kk))) := rfl

theorem exec_seReg (x y : Reg) (s : State) :
    exec (.seReg x y) s = .next (s.advanceSkipIf (decide (s.readV x = s.readV y))) := rfl

theorem exec_sneReg (x y : Reg) (s : State) :
    exec (.sneReg x y) s = .next (s.advanceSkipIf (decide (¬ s.readV x = s.readV y))) := rfl

/-! The conditional skip. -/

section
variable {i : Instr} {s : State} {p : Prop} [Decidable p]

/-- The fetch advance and the skip add up to 4 (R105, R107). -/
theorem advanceSkipIf_decide_pc :
    (s.advanceSkipIf (decide p)).pc = if p then s.pc + 4 else s.pc + 2 := by
  have hfour : s.pc + 2 + 2 = s.pc + 4 := BitVec.add_assoc s.pc 2 2
  simp only [State.advanceSkipIf_pc, decide_eq_true_eq, hfour]

theorem exec_skips_if (h : exec i s = .next (s.advanceSkipIf (decide p))) :
    ∃ t, exec i s = .next t ∧ t.pc = (if p then s.pc + 4 else s.pc + 2) ∧
      t.readV 15 = s.readV 15 ∧ t.status = s.status :=
  ⟨_, h, advanceSkipIf_decide_pc, readV_advanceSkipIf .., State.advanceSkipIf_status ..⟩

theorem exec_skips_unless (h : exec i s = .next (s.advanceSkipIf (decide (¬ p)))) :
    ∃ t, exec i s = .next t ∧ t.pc = (if p then s.pc + 2 else s.pc + 4) ∧
      t.readV 15 = s.readV 15 ∧ t.status = s.status := by
  simpa only [ite_not] using exec_skips_if h

end

/-- Settles O8: SE skips if the register equals the immediate, SNE unless it does. -/
theorem skipImmediateComparesRegister : Obligations.SkipImmediateComparesRegister :=
  ⟨fun x kk => ⟨decode_wordXkk_seImm x kk, decode_wordXkk_sneImm x kk⟩,
    fun x kk s => ⟨exec_skips_if (exec_seImm x kk s), exec_skips_unless (exec_sneImm x kk s)⟩⟩

/-- Settles O9: SE skips if the two registers are equal, SNE unless they are. -/
theorem skipRegistersCompare : Obligations.SkipRegistersCompare :=
  ⟨fun x y n => ⟨decode_wordXyn_seReg x y n, decode_wordXyn_sneReg x y n⟩,
    fun x y s => ⟨exec_skips_if (exec_seReg x y s), exec_skips_unless (exec_sneReg x y s)⟩⟩

end Sys2Proof.Machine

/-! SUPPORT. The loads and the unflagged addition, 6xkk, 7xkk and 8xy0 (spec/43_alu.md R160 to R162): their words, their
next states, and what every instruction that only writes one register does. -/
namespace Sys2Proof.Machine

/-! The words, decoded through their fields (the simp lemmas of `Laws/Decode`). -/

theorem decode_wordXkk_ldImm (x : Reg) (kk : Byte) : decode (wordXkk 0x6 x kk) = .ok (.ldImm x kk) := by
  simp [decode]

theorem decode_wordXkk_addImm (x : Reg) (kk : Byte) : decode (wordXkk 0x7 x kk) = .ok (.addImm x kk) := by
  simp [decode]

theorem decode_wordXyn_ldReg (x y : Reg) : decode (wordXyn 0x8 x y 0) = .ok (.ldReg x y) := by
  simp [decode, decodeAlu]

/-! The next states. -/

theorem exec_ldImm (x : Reg) (kk : Byte) (s : State) :
    exec (.ldImm x kk) s = .next (s.advance.writeV x kk) := rfl

theorem exec_addImm (x : Reg) (kk : Byte) (s : State) :
    exec (.addImm x kk) s = .next (s.advance.writeV x (s.readV x + kk)) := rfl

theorem exec_ldReg (x y : Reg) (s : State) :
    exec (.ldReg x y) s = .next (s.advance.writeV x (s.readV y)) := rfl

/-! The write of one register past the fetch advance. -/

section
variable (s : State) (x : Reg) (v : Byte)

theorem readV_advance_writeV_same : (s.advance.writeV x v).readV x = v := by
  rw [readV_writeV, if_pos rfl]

theorem readV_advance_writeV_of_ne {r : Reg} (h : x ≠ r) : (s.advance.writeV x v).readV r = s.readV r := by
  rw [readV_writeV, if_neg h.symm, readV_advance]

/-- A register that is given the value it holds leaves every register as it was. -/
theorem readV_advance_writeV_self (r : Reg) : (s.advance.writeV x (s.readV x)).readV r = s.readV r := by
  by_cases h : x = r
  · subst h
    exact readV_advance_writeV_same ..
  · exact readV_advance_writeV_of_ne _ _ _ h

/-- No flag unless the register is `VF` itself, the pc past the word, no error. -/
theorem advance_writeV_frame :
    (x ≠ 15 → (s.advance.writeV x v).readV 15 = s.readV 15) ∧
      (s.advance.writeV x v).pc = s.pc + 2 ∧ (s.advance.writeV x v).status = s.status :=
  ⟨readV_advance_writeV_of_ne s x v, State.writeV_pc .., State.writeV_status ..⟩

end

/-- Settles O11: LD of an immediate is one register write. -/
theorem ldImmLoadsImmediate : Obligations.LdImmLoadsImmediate :=
  ⟨decode_wordXkk_ldImm, fun x kk s =>
    ⟨_, exec_ldImm x kk s, readV_advance_writeV_same .., advance_writeV_frame ..⟩⟩

/-- Settles O12: ADD of an immediate is one register write, of a byte sum, which wraps modulo 256. -/
theorem addImmWrapsWithoutFlag : Obligations.AddImmWrapsWithoutFlag := by
  refine ⟨decode_wordXkk_addImm, fun x kk s => ⟨_, exec_addImm x kk s, ?sum, advance_writeV_frame ..⟩⟩
  case sum => rw [readV_advance_writeV_same, BitVec.toNat_add]

/-- Settles O13: LD of a register is one register write; with `x = y` it gives the register the value it holds. -/
theorem ldRegMovesRegister : Obligations.LdRegMovesRegister := by
  refine ⟨decode_wordXyn_ldReg, fun x y s =>
    ⟨_, exec_ldReg x y s, readV_advance_writeV_same .., ?self, advance_writeV_frame ..⟩⟩
  case self =>
    rintro rfl
    exact readV_advance_writeV_self s x

end Sys2Proof.Machine

/-! SUPPORT. Annn (spec/44_index_memory.md R190): the decoded word and the next state. -/
namespace Sys2Proof.Machine

theorem decode_wordNnn_ldI (nnn : Addr12) : decode (wordNnn 0xA nnn) = .ok (.ldI nnn) := by
  simp [decode]

theorem exec_ldI (nnn : Addr12) (s : State) : exec (.ldI nnn) s = .next (s.advance.setI (addrOperand nnn)) := rfl

/-- Settles O19: LD I is one update of `I` past the word, with the 12-bit address, which widening keeps. -/
theorem ldILoadsAddress : Obligations.LdILoadsAddress := by
  refine ⟨decode_wordNnn_ldI, fun nnn s => ⟨_, exec_ldI nnn s, ?address, ?flag, ?pc, ?status⟩⟩
  case address => rw [State.setI_I, addrOperand_toNat]
  case flag => rw [readV_setI, readV_advance]
  case pc => rw [State.setI_pc, State.advance_pc]
  case status => rw [State.setI_status, State.advance_status]

end Sys2Proof.Machine

/-! SUPPORT. The tick and the buzzer (spec/46_timers.md R220 to R222): what a counted-down byte is, what a tick does to
each counter, and when the buzzer sounds. -/
namespace Sys2Proof.Machine

/-- A counter goes down by 1 and stops at 0: the natural-number subtraction (R221). -/
theorem countDown_toNat (v : Byte) : (countDown v).toNat = v.toNat - 1 := by
  unfold countDown
  split
  · next hzero => rw [hzero]; rfl
  · next hpos =>
    have hle : (1 : Byte) ≤ v := by bv_omega
    exact BitVec.toNat_sub_of_le hle

@[simp] theorem countDown_zero : countDown 0 = 0 := rfl

@[simp] theorem countDown_one : countDown 1 = 0 := rfl

@[simp] theorem tickTimers_DT (s : State) : (tickTimers s).DT = countDown s.DT := rfl

@[simp] theorem tickTimers_ST (s : State) : (tickTimers s).ST = countDown s.ST := rfl

/-- A scheduled tick is the one update of both counters, with that move taken off the schedule (R60, R221). -/
theorem step_of_scheduled_tick {s : State} {rest : List Move} (h : s.schedule = .tick :: rest) :
    step s = .next (tickTimers (s.setSchedule rest)) := step_of_cons h

theorem buzzing_eq_true_iff (s : State) : buzzing s = true ↔ s.ST ≠ 0 := bne_iff_ne

theorem buzzing_eq_false_iff (s : State) : buzzing s = false ↔ s.ST = 0 := bne_eq_false_iff_eq

/-- Settles O32: the scheduled tick counts down both counters in one update. -/
theorem tickCountsBothTimersDown : Obligations.TickCountsBothTimersDown := by
  refine fun s rest hsched => ⟨_, step_of_scheduled_tick hsched, ?delay, ?sound, ?frame⟩
  case delay => rw [tickTimers_DT, State.setSchedule_DT, countDown_toNat]
  case sound => rw [tickTimers_ST, State.setSchedule_ST, countDown_toNat]
  case frame => rfl

end Sys2Proof.Machine

/-! SUPPORT. Fx07, Fx15 and Fx18 (spec/46_timers.md R224 to R226): their words, their next states, and what a tick and
the buzzer make of a counter just set. -/
namespace Sys2Proof.Machine

/-! The words, decoded through their fields (the simp lemmas of `Laws/Decode`). -/

theorem decode_wordXkk_ldVxDt (x : Reg) : decode (wordXkk 0xF x 0x07) = .ok (.ldVxDt x) := by
  simp [decode, decodeMisc]

theorem decode_wordXkk_ldDtVx (x : Reg) : decode (wordXkk 0xF x 0x15) = .ok (.ldDtVx x) := by
  simp [decode, decodeMisc]

theorem decode_wordXkk_ldStVx (x : Reg) : decode (wordXkk 0xF x 0x18) = .ok (.ldStVx x) := by
  simp [decode, decodeMisc]

/-! The next states. -/

theorem exec_ldVxDt (x : Reg) (s : State) : exec (.ldVxDt x) s = .next (s.advance.writeV x s.DT) := rfl

theorem exec_ldDtVx (x : Reg) (s : State) : exec (.ldDtVx x) s = .next (s.advance.setDT (s.readV x)) := rfl

theorem exec_ldStVx (x : Reg) (s : State) : exec (.ldStVx x) s = .next (s.advance.setST (s.readV x)) := rfl

/-- Settles O29: LD Vx, DT is one register write, of the delay timer. -/
theorem ldVxDtReadsDelayTimer : Obligations.LdVxDtReadsDelayTimer :=
  ⟨decode_wordXkk_ldVxDt, fun x s =>
    ⟨_, exec_ldVxDt x s, readV_advance_writeV_same .., advance_writeV_frame ..⟩⟩

/-- Settles O30: LD DT, Vx is one update of `DT` past the word; a counter set to 0 is not counted down further. -/
theorem ldDtVxSetsDelayTimer : Obligations.LdDtVxSetsDelayTimer := by
  refine ⟨decode_wordXkk_ldDtVx, fun x s => ⟨_, exec_ldDtVx x s, ?delay, ?stopped, ?flag, ?pc, ?status⟩⟩
  case delay => rw [State.setDT_DT]
  case stopped =>
    intro hzero
    rw [tickTimers_DT, State.setDT_DT, hzero, countDown_zero]
  case flag => rw [readV_setDT, readV_advance]
  case pc => rw [State.setDT_pc, State.advance_pc]
  case status => rw [State.setDT_status, State.advance_status]

/-- Settles O31: LD ST, Vx is one update of `ST` past the word; the buzzer follows from whether the counter, or the
counter after one tick, is 0. -/
theorem ldStVxSetsSoundTimer : Obligations.LdStVxSetsSoundTimer := by
  refine ⟨decode_wordXkk_ldStVx, fun x s =>
    ⟨_, exec_ldStVx x s, ?sound, ?silenced, ?oneTick, ?flag, ?pc, ?status⟩⟩
  case sound => rw [State.setST_ST]
  case silenced =>
    intro hzero
    rw [buzzing_eq_false_iff, State.setST_ST, hzero]
  case oneTick =>
    intro hone
    rw [buzzing_eq_true_iff, buzzing_eq_false_iff, tickTimers_ST, State.setST_ST, hone, countDown_one]
    exact ⟨by decide, rfl⟩
  case flag => rw [readV_setST, readV_advance]
  case pc => rw [State.setST_pc, State.advance_pc]
  case status => rw [State.setST_status, State.advance_status]

end Sys2Proof.Machine

/-! SUPPORT. The round trip of encoder and decoder (spec/30_encoding.md R76): with `encode_of_decode`, each of the two
undoes the other. -/
namespace Sys2Proof

/-- The decoder undoes the encoder, through the fields of each format (R73); the cases are the decoder's groups. -/
theorem decode_encode (i : Instr) : decode (encode i) = .ok i := by
  cases i with
  | cls | ret => decide
  | jp | call | ldI | jpV0 => simp [encode, decode]
  | seImm | sneImm | ldImm | addImm | rnd => simp [encode, decode]
  | seReg | sneReg | drw => simp [encode, decode]
  | ldReg | or | and | xor | addReg | sub | shr | subn | shl => simp [encode, decode, decodeAlu]
  | skp | sknp => simp [encode, decode, decodeKey]
  | ldVxDt | ldVxK | ldDtVx | ldStVx | addIVx | ldFVx | ldBVx | ldMemVx | ldVxMem =>
    simp [encode, decode, decodeMisc]

theorem decode_eq_ok_iff (w : Word) (i : Instr) : decode w = .ok i ↔ w = encode i := by
  constructor
  · exact fun h => (encode_of_decode h).symm
  · rintro rfl
    exact decode_encode i

/-- Settles O41: the fields of a built word are the operands it was built from. -/
theorem decodeOfEncode : Obligations.DecodeOfEncode := decode_encode

/-- Settles O42: `encode_of_decode`, by the families of the decoder. -/
theorem encodeOfDecode : Obligations.EncodeOfDecode := fun _ _ => encode_of_decode

/-- Settles O40: eight closed words, decoded by evaluation. -/
theorem writtenOutWordsDecode : Obligations.WrittenOutWordsDecode := by
  unfold Obligations.WrittenOutWordsDecode
  decide

end Sys2Proof

/-! SUPPORT. The decoder against the opcode map in prose (spec/30_encoding.md R77, R78) and against the table of match
and mask (R76). Both are read in terms of the fields of the word. -/
namespace Sys2Proof

/-! The opcode map in prose. -/

theorem fieldOp_toNat (w : Word) : (fieldOp w).toNat = w.toNat / 4096 := by
  have := w.isLt
  simp only [fieldOp, BitVec.extractLsb'_toNat, Nat.shiftRight_eq_div_pow]
  omega

theorem fieldN_val (w : Word) : (fieldN w).val = w.toNat % 16 := by
  simp [fieldN]

theorem fieldKk_toNat (w : Word) : (fieldKk w).toNat = w.toNat % 256 := by
  simp [fieldKk]

/-- The words of R77 that their low nibble selects, in the families 5, 8 and 9. -/
def SelectedByN (op : BitVec 4) (n : Fin 16) : Prop :=
  op = 5 ∧ n = 0 ∨ op = 9 ∧ n = 0 ∨ op = 8 ∧ n.val ∈ aluSelectors

/-- The words of R77 that their low byte selects, in the families E and F. -/
def SelectedByKk (op : BitVec 4) (kk : Byte) : Prop :=
  op = 0xE ∧ kk.toNat ∈ keySelectors ∨ op = 0xF ∧ kk.toNat ∈ miscSelectors

/-- The opcode map in prose (R77) in terms of the fields of the word. -/
theorem wellFormed_iff (w : Word) : Word.wellFormed w = true ↔
    (w = 0x00E0 ∨ w = 0x00EE) ∨ (fieldOp w).toNat ∈ wholeFamilies ∨
      SelectedByN (fieldOp w) (fieldN w) ∨ SelectedByKk (fieldOp w) (fieldKk w) := by
  simp only [Word.wellFormed, SelectedByN, SelectedByKk, ← BitVec.toNat_inj, Fin.ext_iff, fieldOp_toNat,
    fieldN_val, fieldKk_toNat, Bool.or_eq_true, Bool.and_eq_true, beq_iff_eq, List.contains_iff_mem, or_assoc]
  rfl

/-- The two answers of the decoder on a word, one for the words of the opcode map and one for all others. -/
def DecodesAsMapped (w : Word) (answer : Except DecodeError Instr) : Prop :=
  (Word.wellFormed w = true ∧ ∃ i, answer = .ok i) ∨
    (Word.wellFormed w = false ∧ answer = .error (.unknownOpcode w))

theorem DecodesAsMapped.ok {w : Word} (h : Word.wellFormed w = true) (i : Instr) : DecodesAsMapped w (.ok i) :=
  .inl ⟨h, i, rfl⟩

theorem DecodesAsMapped.error {w : Word} (h : ¬ Word.wellFormed w = true) :
    DecodesAsMapped w (.error (.unknownOpcode w)) :=
  .inr ⟨by simpa using h, rfl⟩

/-- Every word of a whole family is an instruction (R77). -/
theorem wellFormed_of_family {w : Word} {op : BitVec 4} (hop : fieldOp w = op) (h : op.toNat ∈ wholeFamilies) :
    Word.wellFormed w = true :=
  (wellFormed_iff w).2 (.inr (.inl (hop ▸ h)))

/-- In the other families but 0 a selector decides (R77). -/
theorem wellFormed_iff_of_family {w : Word} {op : BitVec 4} (hop : fieldOp w = op) (h0 : op ≠ 0)
    (h : op.toNat ∉ wholeFamilies) :
    Word.wellFormed w = true ↔ SelectedByN op (fieldN w) ∨ SelectedByKk op (fieldKk w) := by
  have hw : ¬ (w = 0x00E0 ∨ w = 0x00EE) := by
    rintro (rfl | rfl) <;> exact h0 (hop.symm.trans (by decide))
  rw [wellFormed_iff, hop]
  simp only [hw, h, false_or]

theorem val_mem_aluSelectors : ∀ n : Fin 16, n.val ∈ aluSelectors ↔
    n = 0 ∨ n = 1 ∨ n = 2 ∨ n = 3 ∨ n = 4 ∨ n = 5 ∨ n = 6 ∨ n = 7 ∨ n = 0xE := by
  decide

theorem toNat_mem_keySelectors : ∀ kk : Byte, kk.toNat ∈ keySelectors ↔ kk = 0x9E ∨ kk = 0xA1 := by
  decide

theorem toNat_mem_miscSelectors : ∀ kk : Byte, kk.toNat ∈ miscSelectors ↔
    kk = 0x07 ∨ kk = 0x0A ∨ kk = 0x15 ∨ kk = 0x18 ∨ kk = 0x1E ∨ kk = 0x29 ∨ kk = 0x33 ∨ kk = 0x55 ∨
      kk = 0x65 := by
  decide

theorem decodeFixed_asMapped {w : Word} (hop : fieldOp w = 0) : DecodesAsMapped w (decodeFixed w) := by
  have hmap : Word.wellFormed w = true ↔ w = 0x00E0 ∨ w = 0x00EE := by
    simp [wellFormed_iff, hop, SelectedByN, SelectedByKk, wholeFamilies]
  unfold decodeFixed
  split
  · next h => exact .ok (hmap.2 (.inl h)) _
  · next hcls =>
    split
    · next h => exact .ok (hmap.2 (.inr h)) _
    · next hret => exact .error fun h => (hmap.1 h).elim hcls hret

/-- The families 5 and 9: SE and SNE on registers at the low nibble 0, nothing else. -/
theorem ite_asMapped {w : Word} {op : BitVec 4} (hop : fieldOp w = op) (h : op = 5 ∨ op = 9) (i : Instr) :
    DecodesAsMapped w (if fieldN w = 0 then .ok i else .error (.unknownOpcode w)) := by
  have hmap : Word.wellFormed w = true ↔ fieldN w = 0 := by
    rcases h with rfl | rfl <;> rw [wellFormed_iff_of_family hop (by decide) (by decide)] <;>
      simp [SelectedByN, SelectedByKk]
  split
  · next hn => exact .ok (hmap.2 hn) i
  · next hn => exact .error (mt hmap.1 hn)

theorem decodeAlu_asMapped {w : Word} (hop : fieldOp w = 8) : DecodesAsMapped w (decodeAlu w) := by
  have hmap : Word.wellFormed w = true ↔ (fieldN w).val ∈ aluSelectors := by
    rw [wellFormed_iff_of_family hop (by decide) (by decide)]
    simp [SelectedByN, SelectedByKk]
  rw [val_mem_aluSelectors] at hmap
  unfold decodeAlu
  split
  case h_10 => exact .error (by rw [hmap]; tauto)
  all_goals exact .ok (hmap.2 (by simp [*])) _

theorem decodeKey_asMapped {w : Word} (hop : fieldOp w = 0xE) : DecodesAsMapped w (decodeKey w) := by
  have hmap : Word.wellFormed w = true ↔ (fieldKk w).toNat ∈ keySelectors := by
    rw [wellFormed_iff_of_family hop (by decide) (by decide)]
    simp [SelectedByN, SelectedByKk]
  rw [toNat_mem_keySelectors] at hmap
  unfold decodeKey
  split
  case h_3 => exact .error (by rw [hmap]; tauto)
  all_goals exact .ok (hmap.2 (by simp [*])) _

theorem decodeMisc_asMapped {w : Word} (hop : fieldOp w = 0xF) : DecodesAsMapped w (decodeMisc w) := by
  have hmap : Word.wellFormed w = true ↔ (fieldKk w).toNat ∈ miscSelectors := by
    rw [wellFormed_iff_of_family hop (by decide) (by decide)]
    simp [SelectedByN, SelectedByKk]
  rw [toNat_mem_miscSelectors] at hmap
  unfold decodeMisc
  split
  case h_10 => exact .error (by rw [hmap]; tauto)
  all_goals exact .ok (hmap.2 (by simp [*])) _

/-- The sixteen families (R71). -/
theorem nibble_cases : ∀ b : BitVec 4, b = 0x0#4 ∨ b = 0x1#4 ∨ b = 0x2#4 ∨ b = 0x3#4 ∨ b = 0x4#4 ∨ b = 0x5#4 ∨
    b = 0x6#4 ∨ b = 0x7#4 ∨ b = 0x8#4 ∨ b = 0x9#4 ∨ b = 0xA#4 ∨ b = 0xB#4 ∨ b = 0xC#4 ∨ b = 0xD#4 ∨
    b = 0xE#4 ∨ b = 0xF#4 := by
  decide

/-- The decoder follows the opcode map in prose; the cases are the sixteen families of R71. -/
theorem decode_asMapped (w : Word) : DecodesAsMapped w (decode w) := by
  unfold decode
  split <;> rename_i hop
  case h_1 => exact decodeFixed_asMapped hop
  case h_6 => exact ite_asMapped hop (.inl rfl) _
  case h_10 => exact ite_asMapped hop (.inr rfl) _
  case h_9 => exact decodeAlu_asMapped hop
  case h_15 => exact decodeKey_asMapped hop
  case h_16 => exact decodeMisc_asMapped hop
  case h_17 => have := nibble_cases (fieldOp w); tauto
  all_goals exact .ok (wellFormed_of_family hop (by decide)) _

/-! The table of match and mask: what a row's fixed bits say of the fields of a word, and that a word has those of at
most one row. -/

theorem fieldOp_and (v w : Word) : fieldOp (v &&& w) = fieldOp v &&& fieldOp w := BitVec.extractLsb'_and

theorem fieldN_and (v w : Word) : nibbleOf (fieldN (v &&& w)) = nibbleOf (fieldN v) &&& nibbleOf (fieldN w) :=
  BitVec.extractLsb'_and

theorem fieldKk_and (v w : Word) : fieldKk (v &&& w) = fieldKk v &&& fieldKk w := BitVec.extractLsb'_and

section
variable {r : OpcodeRow} {w : Word}

theorem fits_iff : r.fits w = true ↔ w &&& r.mask = r.pattern := beq_iff_eq

/-- A field of which the mask keeps every bit is the pattern's. -/
theorem fieldOp_of_fits (h : r.fits w = true) (hm : fieldOp r.mask = 0xF) : fieldOp w = fieldOp r.pattern := by
  rw [← fits_iff.1 h, fieldOp_and, hm]
  exact BitVec.and_allOnes.symm

theorem fieldN_of_fits (h : r.fits w = true) (hm : fieldN r.mask = 0xF) : fieldN w = fieldN r.pattern := by
  have hn : nibbleOf (fieldN w) = nibbleOf (fieldN r.pattern) := by
    rw [← fits_iff.1 h, fieldN_and, hm]
    exact BitVec.and_allOnes.symm
  exact congrArg BitVec.toFin hn

theorem fieldKk_of_fits (h : r.fits w = true) (hm : fieldKk r.mask = 0xFF) : fieldKk w = fieldKk r.pattern := by
  rw [← fits_iff.1 h, fieldKk_and, hm]
  exact BitVec.and_allOnes.symm

theorem eq_pattern_of_fits (h : r.fits w = true) (hm : r.mask = 0xFFFF) : w = r.pattern := by
  rw [← fits_iff.1 h, hm]
  exact BitVec.and_allOnes.symm

end

/-- What each row of the table fixes is what the map in prose asks for: the whole word, the family, or the family and
a selector. -/
def OpcodeRow.Mapped (r : OpcodeRow) : Prop :=
  (r.mask = 0xFFFF ∧ (r.pattern = 0x00E0 ∨ r.pattern = 0x00EE)) ∨
  (fieldOp r.mask = 0xF ∧ (fieldOp r.pattern).toNat ∈ wholeFamilies) ∨
  (fieldOp r.mask = 0xF ∧ fieldN r.mask = 0xF ∧ SelectedByN (fieldOp r.pattern) (fieldN r.pattern)) ∨
  (fieldOp r.mask = 0xF ∧ fieldKk r.mask = 0xFF ∧ SelectedByKk (fieldOp r.pattern) (fieldKk r.pattern))

theorem mapped_of_mem_opcodeRows : ∀ r ∈ opcodeRows, r.Mapped := by
  unfold OpcodeRow.Mapped SelectedByN SelectedByKk
  decide

theorem wellFormed_of_fits {r : OpcodeRow} (hr : r ∈ opcodeRows) {w : Word} (h : r.fits w = true) :
    Word.wellFormed w = true := by
  rw [wellFormed_iff]
  rcases mapped_of_mem_opcodeRows r hr with ⟨hm, hp⟩ | ⟨hop, hp⟩ | ⟨hop, hn, hp⟩ | ⟨hop, hkk, hp⟩
  · exact .inl (eq_pattern_of_fits h hm ▸ hp)
  · exact .inr (.inl (fieldOp_of_fits h hop ▸ hp))
  · exact .inr (.inr (.inl (fieldOp_of_fits h hop ▸ fieldN_of_fits h hn ▸ hp)))
  · exact .inr (.inr (.inr (fieldOp_of_fits h hop ▸ fieldKk_of_fits h hkk ▸ hp)))

/-- Two rows that agree on the bits which both fix are one row (R76). -/
theorem opcodeRows_disjoint : ∀ r ∈ opcodeRows, ∀ q ∈ opcodeRows,
    r.pattern &&& q.mask = q.pattern &&& r.mask → r = q := by
  decide

/-- No word has the fixed bits of two rows. -/
theorem row_unique {r q : OpcodeRow} (hr : r ∈ opcodeRows) (hq : q ∈ opcodeRows) {w : Word}
    (hrw : r.fits w = true) (hqw : q.fits w = true) : r = q := by
  refine opcodeRows_disjoint r hr q hq ?_
  rw [← fits_iff.1 hrw, ← fits_iff.1 hqw, BitVec.and_assoc, BitVec.and_assoc, BitVec.and_comm r.mask]

end Sys2Proof

namespace Sys2Proof.Laws

/-- Each instruction's word has the fixed bits of its row (R76). -/
theorem rowMatch (i : Instr) : RowMatch.Statement i := by
  cases i with
  | cls => exact RowMatch.cls
  | ret => exact RowMatch.ret
  | jp => exact RowMatch.jp _
  | call => exact RowMatch.call _
  | seImm => exact RowMatch.seImm _ _
  | sneImm => exact RowMatch.sneImm _ _
  | seReg => exact RowMatch.seReg _ _
  | ldImm => exact RowMatch.ldImm _ _
  | addImm => exact RowMatch.addImm _ _
  | ldReg => exact RowMatch.ldReg _ _
  | or => exact RowMatch.or _ _
  | and => exact RowMatch.and _ _
  | xor => exact RowMatch.xor _ _
  | addReg => exact RowMatch.addReg _ _
  | sub => exact RowMatch.sub _ _
  | shr => exact RowMatch.shr _ _
  | subn => exact RowMatch.subn _ _
  | shl => exact RowMatch.shl _ _
  | sneReg => exact RowMatch.sneReg _ _
  | ldI => exact RowMatch.ldI _
  | jpV0 => exact RowMatch.jpV0 _
  | rnd => exact RowMatch.rnd _ _
  | drw => exact RowMatch.drw _ _ _
  | skp => exact RowMatch.skp _
  | sknp => exact RowMatch.sknp _
  | ldVxDt => exact RowMatch.ldVxDt _
  | ldVxK => exact RowMatch.ldVxK _
  | ldDtVx => exact RowMatch.ldDtVx _
  | ldStVx => exact RowMatch.ldStVx _
  | addIVx => exact RowMatch.addIVx _
  | ldFVx => exact RowMatch.ldFVx _
  | ldBVx => exact RowMatch.ldBVx _
  | ldMemVx => exact RowMatch.ldMemVx _
  | ldVxMem => exact RowMatch.ldVxMem _

end Sys2Proof.Laws

/-! SUPPORT. The decoder, the map and the table put together. -/
namespace Sys2Proof

/-- A decoded word has the fixed bits of its instruction's row (R76). -/
theorem fits_of_decode {w : Word} {i : Instr} (h : decode w = .ok i) :
    ∃ r ∈ opcodeRows, r.number = i.row ∧ r.fits w = true :=
  encode_of_decode h ▸ Laws.rowMatch i

theorem wellFormed_iff_decode (w : Word) : Word.wellFormed w = true ↔ ∃ i, decode w = .ok i := by
  rcases decode_asMapped w with ⟨hw, hi⟩ | ⟨hw, he⟩ <;> simp [*]

theorem decode_of_not_wellFormed {w : Word} (h : Word.wellFormed w = false) :
    decode w = .error (.unknownOpcode w) := by
  rcases decode_asMapped w with ⟨hw, -⟩ | ⟨-, he⟩
  · cases hw.symm.trans h
  · exact he

/-- Settles O43: the map in prose is `decode_asMapped`; a decoded word fits its instruction's row since it is its
encoding, a word that fits a row is on the map, and no word fits two rows. -/
theorem decoderAgreesWithOpcodeTable : Obligations.DecoderAgreesWithOpcodeTable := by
  refine ⟨fun w => ⟨?fits, ?known⟩, ?row, wellFormed_iff_decode, fun w => decode_of_not_wellFormed⟩
  case fits =>
    rintro ⟨i, hi⟩
    obtain ⟨r, hr, -, hfits⟩ := fits_of_decode hi
    exact ⟨r, hr, hfits⟩
  case known =>
    rintro ⟨r, hr, hfits⟩
    exact (wellFormed_iff_decode w).1 (wellFormed_of_fits hr hfits)
  case row =>
    intro w i r hi hr hfits
    obtain ⟨q, hq, hnumber, hq'⟩ := fits_of_decode hi
    rw [row_unique hr hq hfits hq', hnumber]

end Sys2Proof

/-! SUPPORT. The frame rule (spec/40_execution_cycle.md R109): the kind of each instruction, by what it may write, and
all the next states that an instruction of a kind can lead to. `exec_answers` says once what `exec` does; every
statement about all instructions is a case analysis of `Effect`. -/
namespace Sys2Proof

/-- What an instruction may write, its kind of destination (the frame rule, R109). -/
inductive Instr.Kind where
  /-- the pc, by a skip -/
  | skip
  /-- the pc, by a jump -/
  | jump
  /-- the call stack and the pc -/
  | stack
  /-- `V[x]` -/
  | register (x : Reg)
  /-- `V[x]` and `VF` -/
  | flagged (x : Reg)
  /-- `V[0]` to `V[x]` -/
  | block (x : Reg)
  /-- `V[x]` and the draw counter -/
  | random (x : Reg)
  /-- the display -/
  | clear
  /-- the display and `VF` -/
  | draw
  /-- `I` -/
  | index
  /-- memory -/
  | memory
  /-- `DT` -/
  | delay
  /-- `ST` -/
  | sound
  /-- the status -/
  | wait (x : Reg)

/-- The kind of each instruction. -/
def Instr.kind : Instr → Instr.Kind
  | .seImm _ _ | .sneImm _ _ | .seReg _ _ | .sneReg _ _ | .skp _ | .sknp _ => .skip
  | .jp _ | .jpV0 _ => .jump
  | .ret | .call _ => .stack
  | .ldImm x _ | .addImm x _ | .ldReg x _ | .or x _ | .and x _ | .xor x _ | .ldVxDt x => .register x
  | .addReg x _ | .sub x _ | .subn x _ | .shr x _ | .shl x _ => .flagged x
  | .ldVxMem x => .block x
  | .rnd x _ => .random x
  | .cls => .clear
  | .drw _ _ _ => .draw
  | .ldI _ | .addIVx _ | .ldFVx _ => .index
  | .ldBVx _ | .ldMemVx _ => .memory
  | .ldDtVx _ => .delay
  | .ldStVx _ => .sound
  | .ldVxK x => .wait x

/-- The instructions of a kind. -/
def Instr.Kind.Has : Instr.Kind → Instr → Prop
  | .skip, i => (∃ x kk, i = .seImm x kk ∨ i = .sneImm x kk) ∨ (∃ x y, i = .seReg x y ∨ i = .sneReg x y) ∨
      ∃ x, i = .skp x ∨ i = .sknp x
  | .jump, i => ∃ nnn, i = .jp nnn ∨ i = .jpV0 nnn
  | .stack, i => i = .ret ∨ ∃ nnn, i = .call nnn
  | .register x, i => (∃ kk, i = .ldImm x kk ∨ i = .addImm x kk) ∨ i = .ldVxDt x ∨
      ∃ y, i = .ldReg x y ∨ i = .or x y ∨ i = .and x y ∨ i = .xor x y
  | .flagged x, i => ∃ y, i = .addReg x y ∨ i = .sub x y ∨ i = .subn x y ∨ i = .shr x y ∨ i = .shl x y
  | .block x, i => i = .ldVxMem x
  | .random x, i => ∃ kk, i = .rnd x kk
  | .clear, i => i = .cls
  | .draw, i => ∃ x y n, i = .drw x y n
  | .index, i => (∃ nnn, i = .ldI nnn) ∨ (∃ x, i = .addIVx x) ∨ ∃ x, i = .ldFVx x
  | .memory, i => (∃ x, i = .ldBVx x) ∨ ∃ x, i = .ldMemVx x
  | .delay, i => ∃ x, i = .ldDtVx x
  | .sound, i => ∃ x, i = .ldStVx x
  | .wait x, i => i = .ldVxK x

theorem has_kind (i : Instr) : i.kind.Has i := by
  cases i <;> simp [Instr.kind, Instr.Kind.Has]

theorem has_of_kind_eq {k : Instr.Kind} {i : Instr} (h : i.kind = k) : k.Has i := h ▸ has_kind i

end Sys2Proof

namespace Sys2Proof.Machine

/-- The next states that an instruction of a kind can lead to from `s`: its one effect, or the fault. -/
inductive Effect (s : State) : Instr.Kind → State → Prop where
  | skip (b : Bool) : Effect s .skip (s.advanceSkipIf b)
  | jump {p : Word} (bound : p.toNat ≤ 0x10FE) : Effect s .jump (s.setPc p)
  | ret {rest : List Word} {v : Word} (pops : s.stack = rest ++ [v]) :
      Effect s .stack ((s.setStack rest).setPc v)
  | call {p : Word} (bound : p.toNat ≤ 0xFFF) (room : s.config.stackCapacity ≠ some s.stack.length) :
      Effect s .stack ((s.setStack (s.stack ++ [s.pc + 2])).setPc p)
  | register (x : Reg) (v : Byte) : Effect s (.register x) (s.advance.writeV x v)
  | flagLast (x : Reg) (v f : Byte) : Effect s (.flagged x) ((s.advance.writeV x v).writeV Reg.vf f)
  | flagFirst (x : Reg) (v f : Byte) : Effect s (.flagged x) ((s.advance.writeV Reg.vf f).writeV x v)
  | block (x : Reg) {bytes : List Byte} (length : bytes.length = x.val + 1) :
      Effect s (.block x) (s.advance.setRegs (withRegisterBlock s.V bytes))
  | random (x : Reg) (v : Byte) (n : Nat) : Effect s (.random x) ((s.advance.setDraws n).writeV x v)
  | clear (d : Display) : Effect s .clear (s.advance.setDisp d)
  | draw (d : Display) (f : Byte) : Effect s .draw ((s.advance.setDisp d).writeV Reg.vf f)
  | index (v : Word) : Effect s .index (s.advance.setI v)
  | memory {a : Nat} {bytes : List Byte} (range : a + bytes.length ≤ 4096) :
      Effect s .memory (s.advance.setMem (Memory.writeAll s.config a bytes s.mem))
  | delay (v : Byte) : Effect s .delay (s.advance.setDT v)
  | sound (v : Byte) : Effect s .sound (s.advance.setST v)
  | wait (x : Reg) : Effect s (.wait x) (s.setStatus (.awaitingKey x s.keys))
  | fault (k : Instr.Kind) (e : Fault) : Effect s k (s.setStatus (.faulted e))

theorem addrOperand_le (nnn : Addr12) : (addrOperand nnn).toNat ≤ 0xFFF := by
  have := nnn.isLt
  rw [addrOperand_toNat]
  omega

/-- The sum of an address and a byte does not wrap (R147). -/
theorem addrOperand_add_wideOperand_toNat (nnn : Addr12) (v : Byte) :
    (addrOperand nnn + wideOperand v).toNat = nnn.toNat + v.toNat := by
  have := nnn.isLt
  have := v.isLt
  rw [BitVec.toNat_add, addrOperand_toNat, wideOperand_toNat]
  omega

/-- The highest target of Bnnn is 0xFFF + 0xFF (R25). -/
theorem addrOperand_add_wideOperand_le (nnn : Addr12) (v : Byte) :
    (addrOperand nnn + wideOperand v).toNat ≤ 0x10FE := by
  have := nnn.isLt
  have := v.isLt
  rw [addrOperand_add_wideOperand_toNat]
  omega

/-- All that an instruction does: it answers a next state, an effect of its kind. The cases that can raise an error
are read off the laws of `Laws/Exec`. -/
theorem exec_answers (i : Instr) (s : State) : ∃ t, exec i s = .next t ∧ Effect s i.kind t := by
  cases i with
  | seImm | sneImm | seReg | sneReg => exact ⟨_, rfl, .skip _⟩
  | skp x =>
    obtain ⟨k, -, h⟩ | ⟨-, h⟩ := execSkp_cases x s
    · exact ⟨_, h, .skip _⟩
    · exact ⟨_, h, .fault ..⟩
  | sknp x =>
    obtain ⟨k, -, h⟩ | ⟨-, h⟩ := execSknp_cases x s
    · exact ⟨_, h, .skip _⟩
    · exact ⟨_, h, .fault ..⟩
  | jp => exact ⟨_, rfl, .jump ((addrOperand_le _).trans (by decide))⟩
  | jpV0 => exact ⟨_, rfl, .jump (addrOperand_add_wideOperand_le ..)⟩
  | ret =>
    obtain ⟨rest, v, hs, h⟩ | ⟨-, h⟩ := execRet_cases s
    · exact ⟨_, h, .ret hs⟩
    · exact ⟨_, h, .fault ..⟩
  | call nnn =>
    obtain ⟨hs, h⟩ | ⟨-, h⟩ := execCall_cases nnn s
    · exact ⟨_, h, .call (addrOperand_le nnn) hs⟩
    · exact ⟨_, h, .fault ..⟩
  | ldImm | addImm | ldReg | or | and | xor | ldVxDt => exact ⟨_, rfl, .register ..⟩
  | addReg | sub | subn => exact ⟨_, rfl, .flagLast ..⟩
  | shr | shl => exact ⟨_, rfl, .flagFirst ..⟩
  | ldVxMem x =>
    obtain ⟨-, h⟩ | ⟨-, h⟩ := execLdVxMem_cases x s
    · exact ⟨_, h, .block x (by simp)⟩
    · exact ⟨_, h, .fault ..⟩
  | rnd => exact ⟨_, rfl, .random ..⟩
  | cls => exact ⟨_, rfl, .clear _⟩
  | drw x y n =>
    obtain ⟨-, h⟩ | ⟨-, h⟩ := execDrw_cases x y n s
    · exact ⟨_, h, .draw ..⟩
    · exact ⟨_, h, .fault ..⟩
  | ldI | addIVx | ldFVx => exact ⟨_, rfl, .index _⟩
  | ldBVx x =>
    obtain ⟨hr, h⟩ | ⟨-, h⟩ := execLdBVx_cases x s
    · exact ⟨_, h, .memory hr⟩
    · exact ⟨_, h, .fault ..⟩
  | ldMemVx x =>
    obtain ⟨hr, h⟩ | ⟨-, h⟩ := execLdMemVx_cases x s
    · exact ⟨_, h, .memory (by simpa using hr)⟩
    · exact ⟨_, h, .fault ..⟩
  | ldDtVx => exact ⟨_, rfl, .delay _⟩
  | ldStVx => exact ⟨_, rfl, .sound _⟩
  | ldVxK x => exact ⟨_, rfl, .wait x⟩

theorem effect_of_exec {i : Instr} {s t : State} (h : exec i s = .next t) : Effect s i.kind t := by
  obtain ⟨u, hu, he⟩ := exec_answers i s
  cases hu.symm.trans h
  exact he

/-! What each effect leaves unchanged (R109). -/

namespace Effect

variable {s t : State} {k : Instr.Kind}

theorem keys_eq (h : Effect s k t) : t.keys = s.keys := by cases h <;> simp
theorem config_eq (h : Effect s k t) : t.config = s.config := by cases h <;> simp
theorem schedule_eq (h : Effect s k t) : t.schedule = s.schedule := by cases h <;> simp

/-- The status changes by a fault or a wait only. -/
theorem status_cases (h : Effect s k t) :
    t.status = s.status ∨ (∃ e, t.status = .faulted e) ∨ ∃ x, k = .wait x ∧ t.status = .awaitingKey x s.keys := by
  cases h with
  | fault k e => exact .inr (.inl ⟨e, rfl⟩)
  | wait x => exact .inr (.inr ⟨x, rfl, rfl⟩)
  | _ => exact .inl (by simp)

theorem stack_eq (h : Effect s k t) (hk : k ≠ .stack) : t.stack = s.stack := by
  cases h with
  | ret | call => exact absurd rfl hk
  | _ => simp

theorem I_eq (h : Effect s k t) (hk : k ≠ .index) : t.I = s.I := by
  cases h with
  | index => exact absurd rfl hk
  | _ => simp

theorem DT_eq (h : Effect s k t) (hk : k ≠ .delay) : t.DT = s.DT := by
  cases h with
  | delay => exact absurd rfl hk
  | _ => simp

theorem ST_eq (h : Effect s k t) (hk : k ≠ .sound) : t.ST = s.ST := by
  cases h with
  | sound => exact absurd rfl hk
  | _ => simp

theorem mem_eq (h : Effect s k t) (hk : k ≠ .memory) : t.mem = s.mem := by
  cases h with
  | memory => exact absurd rfl hk
  | _ => simp

theorem draws_eq (h : Effect s k t) (hk : ∀ x, k ≠ .random x) : t.draws = s.draws := by
  cases h with
  | random x => exact absurd rfl (hk x)
  | _ => simp

theorem disp_eq (h : Effect s k t) (hclear : k ≠ .clear) (hdraw : k ≠ .draw) : t.disp = s.disp := by
  cases h with
  | clear => exact absurd rfl hclear
  | draw => exact absurd rfl hdraw
  | _ => simp

end Effect

end Sys2Proof.Machine

/-! SUPPORT. The writers of each state (spec/40_execution_cycle.md R109, spec/10_state.md R32): the obligations read
off `Effect` and the instructions of each kind. -/
namespace Sys2Proof.Machine

/-- A block load leaves the registers above `x` alone (R195). -/
theorem withRegisterBlock_get_above (regs : Vector Byte 16) {bytes : List Byte} {r : Reg}
    (h : bytes.length ≤ r.val) : (withRegisterBlock regs bytes).get r = regs.get r := by
  rw [withRegisterBlock_get, List.getElem?_eq_none h, Option.getD_none]

@[simp] theorem readV_setRegs (s : State) (v : Vector Byte 16) (r : Reg) : (s.setRegs v).readV r = v.get r := rfl

/-- A register that an effect changes is a destination of its kind (R109). -/
theorem Effect.kind_of_readV_ne {s t : State} {k : Instr.Kind} {r : Reg} (h : Effect s k t)
    (hr : t.readV r ≠ s.readV r) :
    k = .register r ∨ k = .random r ∨ (∃ x, (r = x ∨ r = 15) ∧ k = .flagged x) ∨
      (∃ x, r ≤ x ∧ k = .block x) ∨ (r = 15 ∧ k = .draw) := by
  cases h with
  | register x v =>
    obtain rfl : r = x := by
      by_contra hne
      simp [hne] at hr
    exact .inl rfl
  | random x v n =>
    obtain rfl : r = x := by
      by_contra hne
      simp [hne] at hr
    exact .inr (.inl rfl)
  | flagLast x v f | flagFirst x v f =>
    refine .inr (.inr (.inl ⟨x, ?_, rfl⟩))
    by_contra hne
    simp_all
  | block x length =>
    refine .inr (.inr (.inr (.inl ⟨x, ?_, rfl⟩)))
    by_contra hlt
    exact hr (withRegisterBlock_get_above _ (length.trans_le (Nat.lt_of_not_le hlt)))
  | draw d f =>
    refine .inr (.inr (.inr (.inr ⟨?_, rfl⟩)))
    by_contra hne
    simp_all
  | _ => simp at hr

/-- Settles O51: the destinations of an effect, with the instructions of each kind. -/
theorem registerWriters : Obligations.RegisterWriters := by
  intro i s t r h hr
  rcases (effect_of_exec h).kind_of_readV_ne hr with hk | hk | ⟨x, hx, hk⟩ | ⟨x, hx, hk⟩ | ⟨rfl, hk⟩
  · rcases has_of_kind_eq hk with ⟨kk, rfl | rfl⟩ | rfl | ⟨y, rfl | rfl | rfl | rfl⟩ <;> simp
  · obtain ⟨kk, rfl⟩ := has_of_kind_eq hk
    simp
  · obtain ⟨y, hi⟩ := has_of_kind_eq hk
    rcases hx with rfl | rfl <;> rcases hi with rfl | rfl | rfl | rfl | rfl <;> simp
  · obtain rfl : i = .ldVxMem x := has_of_kind_eq hk
    simp [hx]
  · obtain ⟨y, z, n, rfl⟩ := has_of_kind_eq hk
    simp

/-- Settles O50: an effect of another kind leaves the field as it was. -/
theorem eachStateHasItsWriters : Obligations.EachStateHasItsWriters := by
  intro i s t h
  have he := effect_of_exec h
  refine ⟨fun hne => has_of_kind_eq (not_not.1 (mt he.stack_eq hne)),
    fun hne => has_of_kind_eq (not_not.1 (mt he.I_eq hne)), fun hne => has_of_kind_eq (not_not.1 (mt he.DT_eq hne)),
    fun hne => has_of_kind_eq (not_not.1 (mt he.ST_eq hne)), fun ⟨a, hne⟩ => has_of_kind_eq (k := .memory) ?bytes,
    fun hne => ?draws⟩
  case bytes => exact not_not.1 fun hk => hne (byteAt_congr (he.mem_eq hk) he.config_eq a)
  case draws =>
    obtain ⟨x, hk⟩ := not_forall_not.1 (mt he.draws_eq hne)
    exact ⟨x, has_of_kind_eq hk⟩

/-- Settles O48: no effect of any kind writes these fields, and only a fault or a wait writes the status. -/
theorem instructionsLeaveHostStateAlone : Obligations.InstructionsLeaveHostStateAlone := by
  intro i s t h
  have he := effect_of_exec h
  refine ⟨he.keys_eq, he.config_eq, he.schedule_eq, ?_⟩
  rcases he.status_cases with hs | hs | ⟨x, hk, hs⟩
  · exact .inl hs
  · exact .inr (.inl hs)
  · exact .inr (.inr ⟨x, has_of_kind_eq hk, hs⟩)

end Sys2Proof.Machine

/-! SUPPORT. All that one move can do (spec/20_memory.md R60, spec/40_execution_cycle.md R100 to R106): the
interpreter's move by its status, then the move of any agent. Every statement about all moves is a case analysis of
`StepMove`. -/
namespace Sys2Proof.Machine

/-- All that the interpreter's move does (R100 to R106). -/
inductive InterpreterMove (s : State) : State → Prop where
  | halted {e : Fault} (status : s.status = .faulted e) : InterpreterMove s s
  | polled {x : Reg} {sample : Keys} (status : s.status = .awaitingKey x sample) :
      InterpreterMove s (pollKeyWait x sample s)
  | failed (e : Fault) (status : s.status = .running) : InterpreterMove s (s.setStatus (.faulted e))
  | executed {i : Instr} {t : State} (status : s.status = .running) (fetchable : s.pc.toNat + 1 < 4096)
      (decoded : decode (s.wordAt s.pc.toNat) = .ok i) (effect : Effect s i.kind t) : InterpreterMove s t

theorem fetchDecodeExecute_of_fetch_error {s : State} (h : 4096 ≤ s.pc.toNat + 1) :
    fetchDecodeExecute s = raise (.outOfBounds (max s.pc.toNat 4096) s.pc) s := by
  rw [fetchDecodeExecute, fetch_error s h, attempt_error]

theorem fetchDecodeExecute_of_unknown {s : State} (hpc : s.pc.toNat + 1 < 4096) {e : DecodeError}
    (h : decode (s.wordAt s.pc.toNat) = .error e) :
    fetchDecodeExecute s = raise (.unknownOpcode (s.wordAt s.pc.toNat) s.pc) s := by
  rw [fetchDecodeExecute, fetch_ok s hpc, attempt_ok, h]

theorem fetchDecodeExecute_of_decode {s : State} (hpc : s.pc.toNat + 1 < 4096) {i : Instr}
    (h : decode (s.wordAt s.pc.toNat) = .ok i) : fetchDecodeExecute s = exec i s := by
  rw [fetchDecodeExecute, fetch_ok s hpc, attempt_ok, h]

theorem interpreterStep_running {s : State} (h : s.status = .running) :
    interpreterStep s = fetchDecodeExecute s := by
  simp [interpreterStep, h]

theorem interpreterStep_awaiting {s : State} {x : Reg} {sample : Keys} (h : s.status = .awaitingKey x sample) :
    interpreterStep s = .next (pollKeyWait x sample s) := by
  simp [interpreterStep, h]

theorem interpreterStep_faulted {s : State} {e : Fault} (h : s.status = .faulted e) :
    interpreterStep s = .next s := by
  simp [interpreterStep, h]

/-- The interpreter always answers a next state, by its status and then by the checks of fetch and decode (R246). -/
theorem interpreterStep_answers (s : State) : ∃ t, interpreterStep s = .next t ∧ InterpreterMove s t := by
  cases hs : s.status with
  | faulted e => exact ⟨s, interpreterStep_faulted hs, .halted hs⟩
  | awaitingKey x sample => exact ⟨_, interpreterStep_awaiting hs, .polled hs⟩
  | running =>
    rw [interpreterStep_running hs]
    by_cases hpc : s.pc.toNat + 1 < 4096
    · cases hd : decode (s.wordAt s.pc.toNat) with
      | ok i =>
        obtain ⟨t, ht, he⟩ := exec_answers i s
        exact ⟨t, (fetchDecodeExecute_of_decode hpc hd).trans ht, .executed hs hpc hd he⟩
      | error e => exact ⟨_, fetchDecodeExecute_of_unknown hpc hd, .failed _ hs⟩
    · exact ⟨_, fetchDecodeExecute_of_fetch_error (Nat.not_lt.1 hpc), .failed _ hs⟩

/-- All that a move does (R60): the interpreter's, on the state that the caller's schedule leaves for it, or the
timers', or the host's. -/
inductive StepMove (s : State) : State → Prop where
  | unscheduled {t : State} (sched : s.schedule = []) (move : InterpreterMove s t) : StepMove s t
  | scheduled {rest : List Move} {t : State} (sched : s.schedule = .step :: rest)
      (move : InterpreterMove (s.setSchedule rest) t) : StepMove s t
  | tick {rest : List Move} (sched : s.schedule = .tick :: rest) : StepMove s (tickTimers (s.setSchedule rest))
  | reset {rest : List Move} (sched : s.schedule = .reset :: rest) : StepMove s (resetMachine (s.setSchedule rest))
  | load {image : List Byte} {rest : List Move} (sched : s.schedule = .load image :: rest) :
      StepMove s (loadImage image (s.setSchedule rest))
  | setKey {k : Nat} {pressed : Bool} {rest : List Move} (h : k < 16)
      (sched : s.schedule = .setKey k pressed :: rest) :
      StepMove s ((s.setSchedule rest).setKeys (s.keys.set k pressed h))

/-- A move answers a next state, but for a `set_key` with an index above 15 (R125, R215). -/
theorem step_answers (s : State) : (∃ t, step s = .next t ∧ StepMove s t) ∨
    ∃ k pressed rest, s.schedule = .setKey k pressed :: rest ∧ 16 ≤ k ∧
      step s = .refused (.keyIndexOutOfRange k) := by
  cases hs : s.schedule with
  | nil =>
    obtain ⟨t, ht, hm⟩ := interpreterStep_answers s
    exact .inl ⟨t, (step_of_empty hs).trans ht, .unscheduled hs hm⟩
  | cons m rest =>
    have hstep := step_of_cons hs
    cases m with
    | step =>
      obtain ⟨t, ht, hm⟩ := interpreterStep_answers (s.setSchedule rest)
      exact .inl ⟨t, hstep.trans ht, .scheduled hs hm⟩
    | tick => exact .inl ⟨_, hstep, .tick hs⟩
    | reset => exact .inl ⟨_, hstep, .reset hs⟩
    | load image => exact .inl ⟨_, hstep, .load hs⟩
    | setKey k pressed =>
      rcases pressKey_cases k pressed (s.setSchedule rest) with ⟨h, hk⟩ | ⟨h, hk⟩
      · exact .inl ⟨_, hstep.trans hk, .setKey h hs⟩
      · exact .inr ⟨k, pressed, rest, rfl, h, hstep.trans hk⟩

theorem stepMove_of_step {s t : State} (h : step s = .next t) : StepMove s t := by
  rcases step_answers s with ⟨u, hu, hm⟩ | ⟨_, _, _, _, _, hr⟩
  · cases hu.symm.trans h
    exact hm
  · cases hr.symm.trans h

/-- Settles O47: the two inversion lemmas also say that there is an answer. -/
theorem stepAlwaysAnswers : Obligations.StepAlwaysAnswers :=
  ⟨fun i s => (exec_answers i s).imp fun _ => And.left, fun s => (step_answers s).imp_left (.imp fun _ => And.left)⟩

end Sys2Proof.Machine

/-! SUPPORT. The invariant (spec/10_state.md R25, R27, spec/20_memory.md R50): it holds at construction, every effect
of a fetched instruction keeps it, and so does every move. -/
namespace Sys2Proof.Machine

/-- The state after construction, whatever the caller has scheduled (R43, R271). -/
theorem inv_initial (c : Config) (ms : List Move) : ((State.initial c).setSchedule ms).Inv where
  pcBounded := show (0x200 : Word).toNat ≤ 0x10FE by decide
  stackBounded := fun n _ => Nat.zero_le n
  returnsBounded := fun _ hv => absurd hv List.not_mem_nil
  waitsAtFetched := fun _ _ h => by cases h
  memoryWf := Memory.wf_nil c

/-- Settles O44: both states are constructed ones, with an empty schedule. -/
theorem invHoldsAtReset : Obligations.InvHoldsAtReset :=
  ⟨fun c => inv_initial c [], inv_initial Config.reference []⟩

section
variable {s t : State}

/-- The invariant reads the pc, the status, the stack, the parameters and the memory. -/
theorem State.Inv.of_eq (h : s.Inv) (hstack : t.stack = s.stack) (hconfig : t.config = s.config)
    (hmem : t.mem = s.mem) (hpc : t.pc.toNat ≤ 0x10FE) (hwait : t.waitsAtFetched) : t.Inv where
  pcBounded := hpc
  stackBounded := by simpa only [State.stackBounded, hconfig, hstack] using h.stackBounded
  returnsBounded := by simpa only [State.returnsBounded, hstack] using h.returnsBounded
  waitsAtFetched := hwait
  memoryWf := by simpa only [hconfig, hmem] using h.memoryWf

theorem State.Inv.of_eq_all (h : s.Inv) (hstack : t.stack = s.stack) (hconfig : t.config = s.config)
    (hmem : t.mem = s.mem) (hpc : t.pc = s.pc) (hstatus : t.status = s.status) : t.Inv :=
  h.of_eq hstack hconfig hmem (hpc ▸ h.pcBounded)
    (by simpa only [State.waitsAtFetched, hpc, hstatus] using h.waitsAtFetched)

theorem State.Inv.setMem (h : s.Inv) {m : Memory} (hm : Memory.wf s.config m) : (s.setMem m).Inv where
  pcBounded := h.pcBounded
  stackBounded := h.stackBounded
  returnsBounded := h.returnsBounded
  waitsAtFetched := h.waitsAtFetched
  memoryWf := hm

theorem waitsAtFetched_of_running (h : t.status = .running) : t.waitsAtFetched := by
  intro x sample hs
  cases h.symm.trans hs

theorem waitsAtFetched_of_faulted {e : Fault} (h : t.status = .faulted e) : t.waitsAtFetched := by
  intro x sample hs
  cases h.symm.trans hs

/-- The fetch advance of a fetched word does not wrap (R105). -/
theorem pc_add_two_toNat (h : s.pc.toNat + 2 ≤ 4096) : (s.pc + 2).toNat = s.pc.toNat + 2 := by
  rw [BitVec.toNat_add, show (2 : Word).toNat = 2 from rfl]
  exact Nat.mod_eq_of_lt (by omega)

/-- The advance past a fetched word, of a running interpreter (R105). -/
theorem State.Inv.advance (h : s.Inv) (hrun : s.status = .running) (hpc : s.pc.toNat + 2 ≤ 4096) : s.advance.Inv :=
  h.of_eq rfl rfl rfl (by rw [State.advance_pc, pc_add_two_toNat hpc]; omega) (waitsAtFetched_of_running hrun)

theorem advanceSkipIf_pc_toNat_le (h : s.pc.toNat + 2 ≤ 4096) (b : Bool) :
    (s.advanceSkipIf b).pc.toNat ≤ 0x10FE := by
  have h2 := pc_add_two_toNat h
  rw [State.advanceSkipIf_pc]
  split <;> bv_omega

/-- A return leaves a shorter stack and takes a return address as the pc. -/
theorem State.Inv.ret (h : s.Inv) (hrun : s.status = .running) {rest : List Word} {v : Word}
    (pops : s.stack = rest ++ [v]) : ((s.setStack rest).setPc v).Inv where
  pcBounded := (h.returnsBounded v (by simp [pops])).trans (by decide)
  stackBounded := fun n hn => by
    have hlen := h.stackBounded n hn
    rw [pops, List.length_append] at hlen
    exact Nat.le_of_add_right_le hlen
  returnsBounded := fun w hw => h.returnsBounded w (by rw [pops]; exact List.mem_append_left _ hw)
  waitsAtFetched := waitsAtFetched_of_running hrun
  memoryWf := h.memoryWf

/-- A call with room pushes the address after a fetched word. -/
theorem State.Inv.call (h : s.Inv) (hrun : s.status = .running) (hpc : s.pc.toNat + 2 ≤ 4096) {p : Word}
    (bound : p.toNat ≤ 0xFFF) (room : s.config.stackCapacity ≠ some s.stack.length) :
    ((s.setStack (s.stack ++ [s.pc + 2])).setPc p).Inv where
  pcBounded := bound.trans (by decide)
  stackBounded := fun n hn => by
    have hlen : s.stack.length ≤ n := h.stackBounded n hn
    have hne : s.stack.length ≠ n := fun heq => room (heq ▸ hn)
    simpa using Nat.lt_of_le_of_ne hlen hne
  returnsBounded := fun w hw => by
    rcases List.mem_append.1 hw with hw | hw
    · exact h.returnsBounded w hw
    · rw [List.mem_singleton.1 hw, pc_add_two_toNat hpc]
      exact hpc
  waitsAtFetched := waitsAtFetched_of_running hrun
  memoryWf := h.memoryWf

/-- Every effect of a fetched instruction keeps the invariant. -/
theorem Effect.inv {k : Instr.Kind} (he : Effect s k t) (h : s.Inv) (hrun : s.status = .running)
    (hpc : s.pc.toNat + 2 ≤ 4096) : t.Inv := by
  have hadv := h.advance hrun hpc
  cases he with
  | skip b =>
    exact h.of_eq (by simp) (by simp) (by simp) (advanceSkipIf_pc_toNat_le hpc b)
      (waitsAtFetched_of_running (by simpa using hrun))
  | jump bound => exact h.of_eq rfl rfl rfl bound (waitsAtFetched_of_running hrun)
  | ret pops => exact h.ret hrun pops
  | call bound room => exact h.call hrun hpc bound room
  | memory range => exact hadv.setMem (Memory.wf_writeAll _ h.memoryWf range)
  | wait x => exact h.of_eq rfl rfl rfl h.pcBounded fun _ _ _ => hpc
  | fault k e => exact h.of_eq rfl rfl rfl h.pcBounded (waitsAtFetched_of_faulted rfl)
  | _ => exact hadv.of_eq_all rfl rfl rfl rfl rfl

/-- The poll goes on waiting at the same pc, or goes past the waiting word (R214). -/
theorem State.Inv.pollKeyWait (h : s.Inv) {x : Reg} {sample : Keys} (hwait : s.status = .awaitingKey x sample) :
    (pollKeyWait x sample s).Inv := by
  have hpc := h.waitsAtFetched x sample hwait
  unfold Machine.pollKeyWait
  split
  · refine h.of_eq rfl rfl rfl ?_ (waitsAtFetched_of_running rfl)
    rw [State.setStatus_pc, State.advance_pc, State.writeV_pc, pc_add_two_toNat hpc]
    omega
  · exact h.of_eq rfl rfl rfl h.pcBounded fun _ _ _ => hpc

theorem InterpreterMove.inv (hm : InterpreterMove s t) (h : s.Inv) : t.Inv := by
  cases hm with
  | halted => exact h
  | polled hwait => exact h.pollKeyWait hwait
  | failed e hrun => exact h.of_eq rfl rfl rfl h.pcBounded (waitsAtFetched_of_faulted rfl)
  | executed hrun hpc hd he => exact he.inv h hrun hpc

theorem State.Inv.setSchedule (h : s.Inv) (ms : List Move) : (s.setSchedule ms).Inv :=
  h.of_eq_all rfl rfl rfl rfl rfl

theorem State.Inv.loadImage (h : s.Inv) (image : List Byte) : (loadImage image s).Inv := by
  rcases loadImage_cases image s with ⟨hlen, -, heq⟩ | ⟨-, -, heq⟩ <;> rw [heq]
  · exact h.setMem (Memory.wf_writeAll _ h.memoryWf (by omega))
  · exact h

theorem StepMove.inv (hm : StepMove s t) (h : s.Inv) : t.Inv := by
  cases hm with
  | unscheduled sched move => exact move.inv h
  | scheduled sched move => exact move.inv (h.setSchedule _)
  | tick | setKey => exact h.of_eq_all rfl rfl rfl rfl rfl
  | reset => exact (inv_initial s.config []).of_eq_all rfl rfl rfl rfl rfl
  | load => exact (h.setSchedule _).loadImage _

end

/-- Settles O45: by the cases of a move, an instruction's by its effect. -/
theorem stepKeepsInv : Obligations.StepKeepsInv := fun _ _ h hstep => (stepMove_of_step hstep).inv h

/-- The invariant holds along every run; the induction is on the moves made. -/
theorem State.reaches.inv {s t : State} (hr : s.reaches t) (h : s.Inv) : t.Inv := by
  induction hr with
  | refl => exact h
  | move _ last ih => exact stepKeepsInv _ _ ih last

/-- Settles O46: every reached state meets the invariant. -/
theorem pcNeverExceedsBound : Obligations.PcNeverExceedsBound :=
  fun c ms _ hr => (hr.inv (inv_initial c ms)).pcBounded

end Sys2Proof.Machine

/-! SUPPORT. The writers of the display and what the renderer reads (spec/41_display.md R137,
spec/40_execution_cycle.md R122). -/
namespace Sys2Proof.Machine

theorem pollKeyWait_disp (x : Reg) (sample : Keys) (s : State) : (pollKeyWait x sample s).disp = s.disp := by
  unfold pollKeyWait
  split <;> rfl

theorem loadImage_disp (image : List Byte) (s : State) : (loadImage image s).disp = s.disp := by
  unfold loadImage
  split <;> rfl

/-- A move of the interpreter that changes the display is a fetched CLS or DRW. -/
theorem InterpreterMove.disp {s t : State} (hm : InterpreterMove s t) (hne : t.disp ≠ s.disp) :
    s.status = .running ∧ s.pc.toNat + 1 < 4096 ∧
      ∃ i, decode (s.wordAt s.pc.toNat) = .ok i ∧ (i = .cls ∨ ∃ x y n, i = .drw x y n) := by
  cases hm with
  | halted => exact absurd rfl hne
  | polled => exact absurd (pollKeyWait_disp ..) hne
  | failed => exact absurd rfl hne
  | @executed i _ hrun hpc hd he =>
    refine ⟨hrun, hpc, i, hd, ?_⟩
    by_cases hclear : i.kind = .clear
    · exact .inl (has_of_kind_eq hclear)
    · exact .inr (has_of_kind_eq (not_not.1 fun hdraw => hne (he.disp_eq hclear hdraw)))

/-- Division by the row length takes the place in the snapshot apart (R122). -/
theorem snapshot_get (s : State) (c : Fin 64) (r : Fin 32) (k : Fin 2048) (h : k.val = r.val * 64 + c.val) :
    (snapshot s).get k = s.disp.pixel c r := by
  have hc : k.val % 64 = c.val := by omega
  have hr : k.val / 64 = r.val := by omega
  simp [snapshot, Vector.get_eq_getElem, hc, hr]

/-- Settles O49: the other moves leave the display as it was, and an interpreter's move is the scheduled or the
unscheduled one. -/
theorem displayHasThreeWriters : Obligations.DisplayHasThreeWriters := by
  refine ⟨fun s t hstep hne => ?_, snapshot_get⟩
  cases stepMove_of_step hstep with
  | unscheduled sched move => exact .inr ⟨.inl sched, move.disp hne⟩
  | scheduled sched move => exact .inr ⟨.inr ⟨_, sched⟩, move.disp hne⟩
  | reset sched => exact .inl ⟨_, sched⟩
  | tick | setKey => exact absurd rfl hne
  | load => exact absurd (loadImage_disp ..) hne

end Sys2Proof.Machine

/-! SUPPORT. What the agents beside the interpreter change between its moves (spec/20_memory.md R60, spec/46_timers.md
R220): the timers and the schedule. An instruction that names no timer commutes with every such change; the three
statements are this for a tick, a write of `ST` and a replaced schedule. -/
namespace Sys2Proof.Machine

/-- The timers and the schedule replaced by functions of themselves: what the timer agent and the caller may change
between two moves of the interpreter (R60). -/
def State.mapOutside (delay sound : Byte → Byte) (sched : List Move → List Move) (s : State) : State :=
  { s with DT := delay s.DT, ST := sound s.ST, schedule := sched s.schedule }

/-- A function on the next state of an answer. -/
def onNext (f : State → State) : Result → Result
  | .next s => .next (f s)
  | .fault e => .fault e
  | .refused r => .refused r

section
variable (delay sound : Byte → Byte) (sched : List Move → List Move) (s : State)

/-- An operation that does not see the change, and a continuation that commutes with it. -/
theorem attempt_mapOutside {α : Type} {r r' : Except Fault α} {go go' : α → Result} (hr : r' = r)
    (h : ∀ v, go' v = onNext (State.mapOutside delay sound sched) (go v)) :
    attempt (s.mapOutside delay sound sched) r' go' =
      onNext (State.mapOutside delay sound sched) (attempt s r go) := by
  subst hr
  cases r' with
  | ok v => exact h v
  | error e => rfl

theorem memReadAll_mapOutside (a n : Nat) :
    memReadAll (s.mapOutside delay sound sched) a n = memReadAll s a n := by
  induction n generalizing a with
  | zero => rfl
  | succ n ih =>
    rw [memReadAll, memReadAll, ih]
    rfl

theorem advanceSkipIf_mapOutside (b : Bool) :
    (s.mapOutside delay sound sched).advanceSkipIf b =
      (s.advanceSkipIf b).mapOutside delay sound sched := by
  cases b <;> rfl

theorem setRegs_mapOutside (v : Vector Byte 16) :
    (s.mapOutside delay sound sched).advance.setRegs v = (s.advance.setRegs v).mapOutside delay sound sched := rfl

/-- An instruction that names no timer neither reads nor writes the timers and the schedule. -/
theorem exec_mapOutside {i : Instr} (hread : ∀ x, i ≠ .ldVxDt x) (hdelay : ∀ x, i ≠ .ldDtVx x)
    (hsound : ∀ x, i ≠ .ldStVx x) :
    exec i (s.mapOutside delay sound sched) = onNext (State.mapOutside delay sound sched) (exec i s) := by
  cases i with
  | ldVxDt x => exact absurd rfl (hread x)
  | ldDtVx x => exact absurd rfl (hdelay x)
  | ldStVx x => exact absurd rfl (hsound x)
  | seImm | sneImm | seReg | sneReg => exact congrArg Host.Outcome.next (advanceSkipIf_mapOutside ..)
  | skp | sknp =>
    exact attempt_mapOutside _ _ _ _ rfl fun _ => congrArg Host.Outcome.next (advanceSkipIf_mapOutside ..)
  | ret | call | ldBVx | ldMemVx => exact attempt_mapOutside _ _ _ _ rfl fun _ => rfl
  | drw => exact attempt_mapOutside _ _ _ _ (memReadAll_mapOutside ..) fun _ => rfl
  | ldVxMem x =>
    exact attempt_mapOutside _ _ _ _ (memReadAll_mapOutside ..) fun _ =>
      congrArg Host.Outcome.next (setRegs_mapOutside ..)
  | _ => rfl
end

/-- Settles O52: a tick is the change that counts both timers down. -/
theorem ticksCommuteWithInstructions : Obligations.TicksCommuteWithInstructions := by
  intro i s t hread hdelay hsound h
  have hmap := exec_mapOutside countDown countDown id s hread hdelay hsound
  rw [h] at hmap
  exact hmap

/-- An instruction is one of the three that name a timer, or none of them. -/
theorem timer_cases (i : Instr) :
    ((∃ x, i = .ldVxDt x) ∨ (∃ x, i = .ldDtVx x) ∨ ∃ x, i = .ldStVx x) ∨
      ((∀ x, i ≠ .ldVxDt x) ∧ (∀ x, i ≠ .ldDtVx x) ∧ ∀ x, i ≠ .ldStVx x) := by
  simpa only [not_or, not_exists] using
    Classical.em ((∃ x, i = .ldVxDt x) ∨ (∃ x, i = .ldDtVx x) ∨ ∃ x, i = .ldStVx x)

/-- Settles O53: a write of `ST` is such a change; the three timer instructions are read off their meanings. -/
theorem soundTimerIsUnread : Obligations.SoundTimerIsUnread := by
  intro i s t v h
  rcases timer_cases i with (⟨x, rfl⟩ | ⟨x, rfl⟩ | ⟨x, rfl⟩) | ⟨hread, hdelay, hsound⟩
  case inr =>
    have hmap := exec_mapOutside id (fun _ => v) id s hread hdelay hsound
    rw [h] at hmap
    exact ⟨_, hmap, rfl⟩
  all_goals
    cases h
    exact ⟨_, rfl, rfl⟩

/-- No instruction reads or writes the schedule. -/
theorem exec_setSchedule (i : Instr) (s : State) (ms : List Move) :
    exec i (s.setSchedule ms) = onNext (State.setSchedule · ms) (exec i s) := by
  rcases timer_cases i with (⟨x, rfl⟩ | ⟨x, rfl⟩ | ⟨x, rfl⟩) | ⟨hread, hdelay, hsound⟩
  case inr => exact exec_mapOutside id id (fun _ => ms) s hread hdelay hsound
  all_goals rfl

theorem pollKeyWait_setSchedule (x : Reg) (sample : Keys) (s : State) (ms : List Move) :
    pollKeyWait x sample (s.setSchedule ms) = (pollKeyWait x sample s).setSchedule ms := by
  simp only [pollKeyWait, State.setSchedule_keys]
  split <;> rfl

theorem fetchDecodeExecute_setSchedule (s : State) (ms : List Move) :
    fetchDecodeExecute (s.setSchedule ms) = onNext (State.setSchedule · ms) (fetchDecodeExecute s) := by
  refine attempt_mapOutside id id (fun _ => ms) s rfl fun word => ?_
  cases decode word with
  | ok i => exact exec_setSchedule i s ms
  | error e => rfl

theorem interpreterStep_setSchedule (s : State) (ms : List Move) :
    interpreterStep (s.setSchedule ms) = onNext (State.setSchedule · ms) (interpreterStep s) := by
  cases hs : s.status with
  | running =>
    rw [interpreterStep_running hs, ← fetchDecodeExecute_setSchedule]
    exact interpreterStep_running hs
  | awaitingKey x sample =>
    rw [interpreterStep_awaiting hs, interpreterStep_awaiting (s := s.setSchedule ms) hs, pollKeyWait_setSchedule]
    rfl
  | faulted e =>
    rw [interpreterStep_faulted hs, interpreterStep_faulted (s := s.setSchedule ms) hs]
    rfl

/-- Settles O60: the interpreter's move commutes with replacing the schedule. -/
theorem scheduledStepActsLikeUnscheduled : Obligations.ScheduledStepActsLikeUnscheduled := by
  intro s t rest hsched h
  have hmap := interpreterStep_setSchedule (s.setSchedule []) rest
  rw [← step_of_empty (s := s.setSchedule []) rfl, h] at hmap
  exact (step_of_scheduled_step hsched).trans hmap

end Sys2Proof.Machine

/-! SUPPORT. `MemWrite` and fetch (spec/20_memory.md R52, R56, spec/40_execution_cycle.md R104). -/
namespace Sys2Proof.Machine

/-- Byte `i` of a run of writes (R52). -/
theorem Memory.read_writeAll_add (c : Config) (m : Memory) (a : Nat) {bytes : List Byte} {i : Nat}
    (h : i < bytes.length) : Memory.read c (Memory.writeAll c a bytes m) (a + i) = bytes[i] := by
  have hread := Memory.read_writeAll_inside c m (Nat.le_add_right a i) (show a + i - a < bytes.length by omega)
  simpa only [Nat.add_sub_cancel_left] using hread

/-- Settles O35: the range check has two outcomes; a run of writes reads back, leaves the rest and keeps the form. -/
theorem memWriteAllOrNothing : Obligations.MemWriteAllOrNothing := by
  refine fun s a bytes _ => ⟨memWrite_error s, fun hrange => ⟨_, memWrite_ok s hrange, ?inside, ?outside, ?wf⟩⟩
  case inside => exact fun i hi => Memory.read_writeAll_add s.config s.mem a hi
  case outside => exact fun b => Memory.read_writeAll_outside s.config s.mem
  case wf => exact fun hwf => Memory.wf_writeAll s.config hwf hrange

/-- Settles O36: a fetch gives the big-endian word, or records the first unmapped of its two addresses. -/
theorem fetchIsBigEndianAndRangeChecked : Obligations.FetchIsBigEndianAndRangeChecked := by
  refine fun s => ⟨fun h => ⟨_, fetch_ok s (by omega), wordOfBytes_toNat ..⟩, fun h => ?last, fun h => ?past⟩
  case last => rw [fetch_error s (by omega), h]; rfl
  case past => rw [fetch_error s (by omega), max_eq_left h]

end Sys2Proof.Machine

/-! SUPPORT. The step of the interpreter (spec/40_execution_cycle.md R100 to R106, spec/60_exceptions.md R244). -/
namespace Sys2Proof.Machine

/-- What a statement about an error reads of it (R110, R243). -/
theorem raise_spec (e : Fault) (s : State) : ∃ t, raise e s = .next t ∧ t.pc = s.pc ∧ t.status = .faulted e :=
  ⟨_, rfl, rfl, rfl⟩

theorem decode_of_decodeTableWord {w : Nat} {i : Instr} (h : decodeTableWord 16 w = some i) :
    decode (tableWord 16 w) = .ok i := by
  rw [decodeTableWord, bytesOfWord, decodeBytes, wordOfBytes_bytesOfWord] at h
  cases hd : decode (tableWord 16 w) <;> simp_all

/-- Settles O37: a ready state runs the word at `pc`; a scheduled step and a placed word lead to such a state. -/
theorem stepRunsDecodedInstruction : Obligations.StepRunsDecodedInstruction := by
  refine ⟨?ready, ?scheduled, ?placed⟩
  case ready =>
    intro s i hready hpc hd
    rw [step_of_ready hready hpc, hd]
  case scheduled =>
    exact fun s rest hsched => ⟨step_of_scheduled_step hsched, fun i hrun hpc hd =>
      (step_of_scheduled_step hsched).trans (interpreterStep_of_running (s := s.setSchedule rest) hrun hpc hd)⟩
  case placed =>
    intro s w i hi
    obtain ⟨hready, hpc, hword⟩ := placeWord_spec (tableWord 16 w) s
    have hd : decode (tableWord 16 w) = .ok i := decode_of_decodeTableWord hi
    rw [State.withFetchWord, step_of_ready hready hpc, hword, hd]

/-- Settles O38: the first failing check, of fetch and then of decode, raises. -/
theorem fetchAndDecodeErrorsFault : Obligations.FetchAndDecodeErrorsFault := by
  refine ⟨fun s ⟨hrun, hsched⟩ hpc => ?fetch, fun s w hready hpc hw hwf => ?decode⟩
  case fetch =>
    rw [step_of_empty hsched, interpreterStep_running hrun, fetchDecodeExecute_of_fetch_error (by omega)]
    exact raise_spec ..
  case decode =>
    rw [step_of_ready hready (by omega), hw, decode_of_not_wellFormed hwf]
    exact raise_spec ..

theorem stepResult_of_faulted {s : State} {e : Fault} (h : s.status = .faulted e) : stepResult s = some e := by
  rw [stepResult, interpreterStep_faulted h]
  simp only [h]

theorem InterpreterMove.eq_of_faulted {s t : State} {e : Fault} (hm : InterpreterMove s t)
    (h : s.status = .faulted e) : t = s := by
  cases hm with
  | halted => rfl
  | polled hs | failed _ hs | executed hs => cases hs.symm.trans h

theorem loadImage_status (image : List Byte) (s : State) : (loadImage image s).status = s.status := by
  unfold loadImage
  split <;> rfl

/-- Every move but `reset()` leaves a halted interpreter halted with its error (R101, R244). -/
theorem StepMove.status_of_faulted {s t : State} {e : Fault} (hm : StepMove s t) (h : s.status = .faulted e) :
    t.status = .faulted e ∨ ∃ rest, s.schedule = .reset :: rest := by
  cases hm with
  | unscheduled _ move => exact .inl (move.eq_of_faulted h ▸ h)
  | scheduled _ move => exact .inl (move.eq_of_faulted (s := s.setSchedule _) h ▸ h)
  | tick | setKey => exact .inl h
  | reset sched => exact .inr ⟨_, sched⟩
  | load => exact .inl ((loadImage_status ..).trans h)

/-- Settles O39: a halted interpreter's move changes nothing; of the other moves only `reset()` writes the status. -/
theorem faultedStepRepeatsTheError : Obligations.FaultedStepRepeatsTheError := by
  refine ⟨fun s e hs => ⟨stepResult_of_faulted hs, fun hsched => ?repeats⟩, fun s t e hs hstep hleft => ?leaves⟩
  case repeats => rw [step_of_empty hsched, interpreterStep_faulted hs]
  case leaves => exact ((stepMove_of_step hstep).status_of_faulted hs).resolve_left hleft

end Sys2Proof.Machine

/-! SUPPORT. The host's moves (spec/70_reset_and_hazards.md R270, spec/40_execution_cycle.md R121, spec/45_input.md
R215) and the poll of the key wait (R214). -/
namespace Sys2Proof.Machine

/-- Settles O54: the state after the move is the constructed one, field by field. -/
theorem resetRestoresResetState : Obligations.ResetRestoresResetState := by
  intro s rest hsched
  refine ⟨_, step_of_cons hsched, fun a ha => dif_pos ha, fun a ha => dif_neg (Nat.not_lt.2 ha), ?V, rfl, rfl, rfl,
    rfl, rfl, ?keys, pixel_clear, rfl, rfl, rfl, rfl⟩
  case V => exact fun r => Vector.getElem_replicate r.isLt
  case keys => exact fun k => Vector.getElem_replicate k.isLt

/-- Settles O55: the two cases of a load; an image that fits is a run of writes. -/
theorem loadWritesTheImageOnly : Obligations.LoadWritesTheImageOnly := by
  intro s image rest hsched
  have hstep := step_of_cons hsched
  rcases loadImage_cases image (s.setSchedule rest) with ⟨hfits, hresult, hload⟩ | ⟨hlong, hresult, hload⟩
  · refine ⟨fun _ => ⟨hresult, _, hstep.trans (congrArg Host.Outcome.next hload), ?inside, ?outside, rfl⟩,
      fun h => by omega⟩
    case inside => exact fun j hj => Memory.read_writeAll_add s.config s.mem 0x200 hj
    case outside => exact fun a => Memory.read_writeAll_outside s.config s.mem
  · exact ⟨fun h => by omega, fun _ => ⟨hresult, hstep.trans (congrArg Host.Outcome.next hload)⟩⟩

/-- Settles O56: the index check has two outcomes; an index below 16 is one update of the key vector. -/
theorem setKeyWritesOneKey : Obligations.SetKeyWritesOneKey := by
  intro s k p rest hsched
  have hstep := step_of_cons hsched
  refine ⟨fun h => ⟨_, hstep.trans (dif_pos h), ?key, ?other, rfl⟩, fun h => hstep.trans (dif_neg (Nat.not_lt.2 h))⟩
  case key => simp [Vector.get_eq_getElem]
  case other =>
    intro j hj
    simp [Vector.get_eq_getElem, hj.symm]

theorem pollKeyWait_of_key {x : Reg} {sample : Keys} {s : State} {k : Reg} (h : wakingKey sample s.keys = some k) :
    pollKeyWait x sample s = ((s.writeV x (BitVec.ofNat 8 k.val)).advance).setStatus .running := by
  rw [pollKeyWait, h]

theorem pollKeyWait_of_none {x : Reg} {sample : Keys} {s : State} (h : wakingKey sample s.keys = none) :
    pollKeyWait x sample s = s.setStatus (.awaitingKey x s.keys) := by
  rw [pollKeyWait, h]

theorem key_toNat (k : Reg) : (BitVec.ofNat 8 k.val).toNat = k.val := by
  have := k.isLt
  rw [BitVec.toNat_ofNat]
  omega

/-- Settles O28: the two cases of the waking key. -/
theorem keyWaitPoll : Obligations.KeyWaitPoll := by
  intro x sample s hwait hsched
  have hstep : step s = .next (pollKeyWait x sample s) :=
    (step_of_empty hsched).trans (interpreterStep_awaiting hwait)
  rcases wakingKey_cases sample s.keys with ⟨k, hk, hnew, hpressed, hlowest⟩ | ⟨hnone, hold⟩
  · rw [pollKeyWait_of_key hk] at hstep
    refine ⟨fun _ => ⟨k, _, hstep, hpressed, hlowest, ?value, fun r hr => ?others, rfl⟩, fun h => absurd hnew h⟩
    case value => rw [readV_setStatus, readV_advance, readV_writeV, if_pos rfl, key_toNat]
    case others => rw [readV_setStatus, readV_advance, readV_writeV, if_neg hr]
  · rw [pollKeyWait_of_none hnone] at hstep
    exact ⟨fun h => absurd h hold, fun _ => hstep⟩

end Sys2Proof.Machine

/-! SUPPORT. 00EE, 2nnn and Bnnn (spec/42_control_flow.md R140, R142, R147): the next state under each condition. -/
namespace Sys2Proof.Machine

theorem exec_ret_of_append {s : State} {rest : List Word} {v : Word} (h : s.stack = rest ++ [v]) :
    exec .ret s = .next ((s.setStack rest).setPc v) := by
  show execRet s = _
  rw [execRet, pop_of_append h, attempt_ok]

theorem exec_ret_of_empty {s : State} (h : s.stack = []) : exec .ret s = raise (.stackUnderflow s.pc) s := by
  show execRet s = _
  rw [execRet, pop_of_empty h, attempt_error]

/-- Settles O5: RET has one encoding, and the two outcomes of `Pop`. -/
theorem retPopsReturnAddress : Obligations.RetPopsReturnAddress :=
  ⟨(decode_eq_ok_iff · .ret), fun _ _ _ => exec_ret_of_append, fun _ h => ⟨_, exec_ret_of_empty h, rfl, rfl⟩⟩

theorem exec_call_of_room (nnn : Addr12) {s : State} (h : s.config.stackCapacity ≠ some s.stack.length) :
    exec (.call nnn) s = .next ((s.setStack (s.stack ++ [s.pc + 2])).setPc (addrOperand nnn)) :=
  (execCall_cases nnn s).elim And.right fun hfull => absurd hfull.1 h

theorem exec_call_of_full (nnn : Addr12) {s : State} (h : s.config.stackCapacity = some s.stack.length) :
    exec (.call nnn) s = raise (.stackOverflow s.pc) s :=
  (execCall_cases nnn s).elim (fun hroom => absurd h hroom.1) And.right

/-- Settles O6: the two outcomes of `Push`; an unbounded stack is never at capacity. -/
theorem callPushesReturnAddress : Obligations.CallPushesReturnAddress := by
  refine ⟨fun nnn s hroom => ⟨_, exec_call_of_room nnn hroom, rfl, addrOperand_toNat nnn, rfl⟩,
    fun nnn s hfull => ⟨_, exec_call_of_full nnn hfull, rfl, rfl⟩,
    fun nnn s hnone => ⟨_, exec_call_of_room nnn ?_, rfl⟩⟩
  simp [hnone]

theorem exec_jpV0 (nnn : Addr12) (s : State) :
    exec (.jpV0 nnn) s = .next (s.setPc (addrOperand nnn + wideOperand (s.readV (jumpOperand s nnn)))) := rfl

theorem jumpOperand_of_v0Addr {s : State} (nnn : Addr12) (h : s.config.jumpOffset = .v0Addr) :
    jumpOperand s nnn = 0 := by
  simp [jumpOperand, h]

theorem jumpOperand_of_vxXnn {s : State} {nnn : Addr12} (h : s.config.jumpOffset = .vxXnn) {x : Reg}
    (hx : x.val = nnn.toNat / 256) : jumpOperand s nnn = x := by
  have hlt := x.isLt
  have hval : (jumpOperand s nnn).val = (nnn.toNat >>> 8) % 16 := by simp [jumpOperand, h]
  rw [Fin.ext_iff, hval, Nat.shiftRight_eq_div_pow]
  omega

/-- Settles O10: one update of the pc with a sum that does not wrap, under each form of the operand. -/
theorem jpV0AddsExactly : Obligations.JpV0AddsExactly := by
  refine fun nnn s => ⟨_, exec_jpV0 nnn s, fun h => ?v0, fun h x hx => ?vx, rfl⟩
  case v0 => rw [State.setPc_pc, addrOperand_add_wideOperand_toNat, jumpOperand_of_v0Addr nnn h]
  case vx => rw [State.setPc_pc, addrOperand_add_wideOperand_toNat, jumpOperand_of_vxXnn h hx]

end Sys2Proof.Machine

/-! SUPPORT. The logic, the arithmetic, the shifts and the draw (spec/43_alu.md R163 to R170, R180): the next states,
the values and flags as numbers, and what every instruction of a shape leaves unchanged. -/
namespace Sys2Proof.Machine

theorem exec_or (x y : Reg) (s : State) :
    exec (.or x y) s = .next (s.advance.writeV x (s.readV x ||| s.readV y)) := rfl

theorem exec_and (x y : Reg) (s : State) :
    exec (.and x y) s = .next (s.advance.writeV x (s.readV x &&& s.readV y)) := rfl

theorem exec_xor (x y : Reg) (s : State) :
    exec (.xor x y) s = .next (s.advance.writeV x (s.readV x ^^^ s.readV y)) := rfl

/-- The frame of one register write past the word: no other register, and nothing else but the pc (R109). -/
theorem advance_writeV_only (s : State) (x : Reg) (v : Byte) :
    (∀ r, r ≠ x → (s.advance.writeV x v).readV r = s.readV r) ∧
      s.advance.writeV x v = { s with V := (s.advance.writeV x v).V, pc := s.pc + 2 } :=
  ⟨fun _ hr => readV_advance_writeV_of_ne s x v hr.symm, rfl⟩

/-- Settles O14: one register write each, of a bitwise operation. -/
theorem logicOpsActBitwise : Obligations.LogicOpsActBitwise := by
  refine fun x y s => ⟨⟨_, exec_or x y s, fun k => ?or, advance_writeV_only ..⟩,
    ⟨_, exec_and x y s, fun k => ?and, advance_writeV_only ..⟩,
    ⟨_, exec_xor x y s, fun k => ?xor, advance_writeV_only ..⟩⟩
  case or => rw [readV_advance_writeV_same, BitVec.getLsbD_or]
  case and => rw [readV_advance_writeV_same, BitVec.getLsbD_and]
  case xor => rw [readV_advance_writeV_same, BitVec.getLsbD_xor]

/-! The value, then the flag: 8xy4, 8xy5 and 8xy7. -/

theorem exec_addReg (x y : Reg) (s : State) : exec (.addReg x y) s =
    .next ((s.advance.writeV x (s.readV x + s.readV y)).writeV Reg.vf (carryFlag (s.readV x) (s.readV y))) := rfl

theorem exec_sub (x y : Reg) (s : State) : exec (.sub x y) s =
    .next ((s.advance.writeV x (s.readV x - s.readV y)).writeV Reg.vf
      (noBorrowFlag (s.readV x) (s.readV y))) := rfl

theorem exec_subn (x y : Reg) (s : State) : exec (.subn x y) s =
    .next ((s.advance.writeV x (s.readV y - s.readV x)).writeV Reg.vf
      (noBorrowFlag (s.readV y) (s.readV x))) := rfl

section
variable (s : State) (x : Reg) (v f : Byte)

/-- The flag is written last and wins over the value (R108). -/
theorem readV_flagLast_vf : ((s.advance.writeV x v).writeV Reg.vf f).readV 15 = f := by
  rw [readV_writeV, if_pos rfl]

theorem readV_flagLast_dest (h : x ≠ 15) : ((s.advance.writeV x v).writeV Reg.vf f).readV x = v := by
  rw [readV_writeV, if_neg h, readV_writeV, if_pos rfl]

theorem flagLast_only :
    (∀ r, r ≠ x → r ≠ 15 → ((s.advance.writeV x v).writeV Reg.vf f).readV r = s.readV r) ∧
      (s.advance.writeV x v).writeV Reg.vf f =
        { s with V := ((s.advance.writeV x v).writeV Reg.vf f).V, pc := s.pc + 2 } := by
  refine ⟨fun r hx h15 => ?_, rfl⟩
  rw [readV_writeV, if_neg h15, readV_writeV, if_neg hx, readV_advance]
end

theorem carryFlag_toNat (a b : Byte) : (carryFlag a b).toNat = (a.toNat + b.toNat) / 256 := by
  have ha := a.isLt
  have hb := b.isLt
  by_cases h : a.toNat + b.toNat > 255
  · simp only [carryFlag, flagByte, h, decide_true, if_true]
    show 1 = _
    omega
  · simp only [carryFlag, flagByte, h, decide_false]
    show 0 = _
    omega

theorem noBorrowFlag_eq (a b : Byte) : noBorrowFlag a b = if b.toNat ≤ a.toNat then 1 else 0 := by
  simp [noBorrowFlag, flagByte]

theorem sub_toNat (a b : Byte) : (a - b).toNat = (a.toNat + 256 - b.toNat) % 256 := by
  have hb := b.isLt
  rw [BitVec.toNat_sub]
  omega

/-- Settles O15: the flag is written last, so it is what `VF` holds whatever `x` is. -/
theorem addRegSumAndCarry : Obligations.AddRegSumAndCarry := by
  refine fun x y s => ⟨_, exec_addReg x y s, fun hx => ?sum, ?carry, flagLast_only ..⟩
  case sum => rw [readV_flagLast_dest _ _ _ _ hx, BitVec.toNat_add]
  case carry => rw [readV_flagLast_vf, carryFlag_toNat]

/-- Settles O16: as the addition, with the operands in either order. -/
theorem subtractionsAndNoBorrow : Obligations.SubtractionsAndNoBorrow := by
  refine fun x y s => ⟨⟨_, exec_sub x y s, fun hx => ?sub, ?flag, flagLast_only ..⟩,
    ⟨_, exec_subn x y s, fun hx => ?subn, ?flagn, flagLast_only ..⟩⟩
  case sub | subn => rw [readV_flagLast_dest _ _ _ _ hx, sub_toNat]
  case flag | flagn => rw [readV_flagLast_vf, noBorrowFlag_eq]

/-! The flag, then the value: 8xy6 and 8xyE. -/

theorem shiftOperand_eq {s : State} {x y z : Reg} (hvx : s.config.shiftSource = .vx → z = x)
    (hvy : s.config.shiftSource = .vy → z = y) : shiftOperand s x y = z := by
  unfold shiftOperand
  split
  · next h => exact (hvx h).symm
  · next h => exact (hvy h).symm

theorem exec_shr (x y : Reg) (s : State) : exec (.shr x y) s =
    .next (shiftInto x (shiftOperand s x y) shiftRightFlag (fun v => v >>> 1) s.advance) := rfl

theorem exec_shl (x y : Reg) (s : State) : exec (.shl x y) s =
    .next (shiftInto x (shiftOperand s x y) shiftLeftFlag (fun v => v <<< 1) s.advance) := rfl

section
variable (s : State) (x z : Reg) (flag shifted : Byte → Byte)

/-- What the shift reads: the operand, or the flag just written where the operand is `VF` (R108). -/
theorem readV_shiftInto_dest : (shiftInto x z flag shifted s.advance).readV x =
    shifted (if z = 15 then flag (s.readV z) else s.readV z) := by
  simp only [shiftInto, readV_writeV, if_true, readV_advance]

theorem readV_shiftInto_vf (h : x ≠ 15) :
    (shiftInto x z flag shifted s.advance).readV 15 = flag (s.readV z) := by
  simp only [shiftInto, readV_writeV, if_neg h.symm, if_true, readV_advance]

theorem shiftInto_only :
    (∀ r, r ≠ x → r ≠ 15 → (shiftInto x z flag shifted s.advance).readV r = s.readV r) ∧
      shiftInto x z flag shifted s.advance =
        { s with V := (shiftInto x z flag shifted s.advance).V, pc := s.pc + 2 } := by
  refine ⟨fun r hx h15 => ?_, rfl⟩
  simp only [shiftInto, readV_writeV, if_neg hx, if_neg h15, readV_advance]
end

theorem shiftRightFlag_toNat (v : Byte) : (shiftRightFlag v).toNat = v.toNat % 2 := by
  simp [shiftRightFlag]

theorem shiftLeftFlag_toNat (v : Byte) : (shiftLeftFlag v).toNat = v.toNat / 128 := by
  have hv := v.isLt
  rw [shiftLeftFlag, BitVec.toNat_and, BitVec.toNat_ushiftRight, Nat.shiftRight_eq_div_pow,
    show (1 : Byte).toNat = 1 from rfl, Nat.and_one_is_mod]
  omega

/-- Settles O17: `readV_shiftInto_dest` says which byte is shifted; the rest is the shift as arithmetic. -/
theorem shiftsWriteFlagFirst : Obligations.ShiftsWriteFlagFirst := by
  intro x y z s hvx hvy
  have hz := shiftOperand_eq hvx hvy
  refine ⟨⟨_, exec_shr x y s, fun h => ?shr, fun h => ?shrFlag, fun h => ?vfr, shiftInto_only ..⟩,
    ⟨_, exec_shl x y s, fun h => ?shl, fun h => ?shlFlag, fun h => ?vfl, shiftInto_only ..⟩⟩
  case vfr => rw [readV_shiftInto_vf _ _ _ _ _ h, hz, shiftRightFlag_toNat]
  case vfl => rw [readV_shiftInto_vf _ _ _ _ _ h, hz, shiftLeftFlag_toNat]
  all_goals rw [readV_shiftInto_dest, hz]
  case shr => rw [if_neg h, BitVec.toNat_ushiftRight, Nat.shiftRight_eq_div_pow, pow_one]
  case shl => rw [if_neg h, BitVec.toNat_shiftLeft, Nat.shiftLeft_eq, pow_one]
  case shrFlag =>
    rw [if_pos h]
    apply BitVec.eq_of_toNat_eq
    rw [BitVec.toNat_ushiftRight, shiftRightFlag_toNat, Nat.shiftRight_eq_div_pow]
    show _ = 0
    omega
  case shlFlag =>
    have hv := (s.readV z).isLt
    rw [if_pos h, BitVec.toNat_shiftLeft, shiftLeftFlag_toNat, Nat.shiftLeft_eq]
    omega

/-! The draw. -/

theorem exec_rnd (x : Reg) (kk : Byte) (s : State) : exec (.rnd x kk) s =
    .next ((s.advance.setDraws (s.draws + 1)).writeV x (Config.randomByte s.draws &&& kk)) := rfl

/-- Settles O18: one register write of the masked byte, beside the draw counter. -/
theorem rndMasksFreeByte : Obligations.RndMasksFreeByte := by
  refine fun x kk s => ⟨_, exec_rnd x kk s, fun k => ?masked, fun r hr => ?others, rfl⟩
  case masked => rw [readV_writeV, if_pos rfl, BitVec.getLsbD_and]
  case others => rw [readV_writeV, if_neg hr, readV_setDraws, readV_advance]

end Sys2Proof.Machine

/-! SUPPORT. Fx1E, Fx29, Fx33, Fx55, Fx65 and the range of every transfer (spec/44_index_memory.md R191 to R195,
spec/41_display.md R136): the next state inside memory, the error past it, and what a store and a load do to each byte
and register. -/
namespace Sys2Proof.Machine

theorem exec_addIVx (x : Reg) (s : State) :
    exec (.addIVx x) s = .next (s.advance.setI (s.I + wideOperand (s.readV x))) := rfl

theorem exec_ldFVx (x : Reg) (s : State) :
    exec (.ldFVx x) s = .next (s.advance.setI (glyphAddress (s.readV x))) := rfl

/-- Settles O20: one update of `I` with a 16-bit sum. -/
theorem addIVxWrapsAtSixteenBits : Obligations.AddIVxWrapsAtSixteenBits := by
  refine fun x s => ⟨_, exec_addIVx x s, ?sum, rfl⟩
  case sum => rw [State.setI_I, BitVec.toNat_add, wideOperand_toNat]

/-- Settles O21: one update of `I` with the glyph address. -/
theorem ldFVxPointsAtGlyph : Obligations.LdFVxPointsAtGlyph :=
  fun x s => ⟨_, exec_ldFVx x s, glyphAddress_toNat _, rfl⟩

theorem exec_ldBVx_of_inside (x : Reg) {s : State} (h : baseAddress s + 3 ≤ 4096) :
    exec (.ldBVx x) s = .next (s.advance.setMem
      (Memory.writeAll s.config (baseAddress s) (decimalDigits (s.readV x)) s.mem)) :=
  (execLdBVx_cases x s).elim And.right fun hpast => absurd h (Nat.not_le.2 hpast.1)

theorem exec_ldBVx_of_past (x : Reg) {s : State} (h : 4096 < baseAddress s + 3) :
    exec (.ldBVx x) s = raise (.outOfBounds (max (baseAddress s) 4096) s.pc) s :=
  (execLdBVx_cases x s).elim (fun hinside => absurd hinside.1 (Nat.not_le.2 h)) And.right

theorem exec_ldMemVx_of_inside (x : Reg) {s : State} (h : baseAddress s + (x.val + 1) ≤ 4096) :
    exec (.ldMemVx x) s = .next (s.advance.setMem
      (Memory.writeAll s.config (baseAddress s) (registerBlock s x) s.mem)) :=
  (execLdMemVx_cases x s).elim And.right fun hpast => absurd h (Nat.not_le.2 hpast.1)

theorem exec_ldMemVx_of_past (x : Reg) {s : State} (h : 4096 < baseAddress s + (x.val + 1)) :
    exec (.ldMemVx x) s = raise (.outOfBounds (max (baseAddress s) 4096) s.pc) s :=
  (execLdMemVx_cases x s).elim (fun hinside => absurd hinside.1 (Nat.not_le.2 h)) And.right

theorem exec_ldVxMem_of_inside (x : Reg) {s : State} (h : baseAddress s + (x.val + 1) ≤ 4096) :
    exec (.ldVxMem x) s =
      .next (s.advance.setRegs (withRegisterBlock s.V (bytesFrom s (x.val + 1)))) :=
  (execLdVxMem_cases x s).elim And.right fun hpast => absurd h (Nat.not_le.2 hpast.1)

theorem exec_ldVxMem_of_past (x : Reg) {s : State} (h : 4096 < baseAddress s + (x.val + 1)) :
    exec (.ldVxMem x) s = raise (.outOfBounds (max (baseAddress s) 4096) s.pc) s :=
  (execLdVxMem_cases x s).elim (fun hinside => absurd hinside.1 (Nat.not_le.2 h)) And.right

theorem exec_drw_of_inside (x y : Reg) (n : Fin 16) {s : State} (h : n.val = 0 ∨ baseAddress s + n.val ≤ 4096) :
    exec (.drw x y n) s = .next ((s.advance.setDisp
      (drawSprite (s.readV x) (s.readV y) (bytesFrom s n.val) s.disp).1).writeV Reg.vf
      (erasedFlag (drawSprite (s.readV x) (s.readV y) (bytesFrom s n.val) s.disp).2)) :=
  (execDrw_cases x y n s).elim And.right fun hpast => absurd hpast.1 (by omega)

theorem exec_drw_of_past (x y : Reg) (n : Fin 16) {s : State} (hn : 1 ≤ n.val)
    (h : 4096 < baseAddress s + n.val) :
    exec (.drw x y n) s = raise (.outOfBounds (max (baseAddress s) 4096) s.pc) s :=
  (execDrw_cases x y n s).elim (fun hinside => absurd hinside.1 (by omega)) And.right

/-- Settles O4: each of the four transfers raises past the end, with the base address as its lowest. -/
theorem memoryTransferPastEndFaults : Obligations.MemoryTransferPastEndFaults := by
  refine ⟨fun x y n s hn h => ?drw, fun x s h => ⟨_, exec_ldBVx_of_past x h, rfl, rfl⟩,
    fun x s h => ⟨⟨_, exec_ldMemVx_of_past x h, rfl, rfl⟩, ⟨_, exec_ldVxMem_of_past x h, rfl, rfl⟩⟩⟩
  case drw =>
    have hpos : 1 ≤ n.val := Nat.one_le_iff_ne_zero.2 fun h0 => hn (Fin.ext h0)
    exact ⟨_, exec_drw_of_past x y n hpos h, rfl, rfl⟩

section
variable (s : State) {a : Nat} {bytes : List Byte}

/-- A byte that a store past the fetch advance writes. -/
theorem byteAt_store_add {i : Nat} (h : i < bytes.length) :
    (s.advance.setMem (Memory.writeAll s.config a bytes s.mem)).byteAt (a + i) = bytes[i] :=
  Memory.read_writeAll_add s.config s.mem a h

/-- The bytes that a store leaves as they were (R109). -/
theorem byteAt_store_outside {b : Nat} (h : b < a ∨ a + bytes.length ≤ b) :
    (s.advance.setMem (Memory.writeAll s.config a bytes s.mem)).byteAt b = s.byteAt b :=
  Memory.read_writeAll_outside s.config s.mem h

end

/-- Settles O22: a store of the three digits. -/
theorem ldBVxStoresDecimalDigits : Obligations.LdBVxStoresDecimalDigits := by
  intro x s h
  have digit (i : Nat) (hi : i < 3) := congrArg BitVec.toNat
    (byteAt_store_add s (a := baseAddress s) (bytes := decimalDigits (s.readV x)) hi)
  refine ⟨_, exec_ldBVx_of_inside x h, ?hundreds, ?tens, ?ones, fun b hb => byteAt_store_outside s hb, rfl⟩
  case hundreds => exact (digit 0 (by decide)).trans (by simp [decimalDigits])
  case tens => exact (digit 1 (by decide)).trans (by simp [decimalDigits])
  case ones => exact (digit 2 (by decide)).trans (by simp [decimalDigits])

/-- The byte at `I + r` after a store of the register block (R194). -/
theorem byteAt_storeBlock (s : State) {x r : Reg} (h : r ≤ x) :
    (s.advance.setMem (Memory.writeAll s.config (baseAddress s) (registerBlock s x) s.mem)).byteAt
      (baseAddress s + r.val) = s.readV r := by
  have hr : r.val < (registerBlock s x).length := by
    rw [registerBlock_length]
    exact Nat.lt_succ_of_le h
  rw [byteAt_store_add s hr, registerBlock_getElem s x hr r.isLt]

/-- Settles O23: a store of the register block. -/
theorem ldMemVxStoresRegisters : Obligations.LdMemVxStoresRegisters := by
  intro x s h
  refine ⟨_, exec_ldMemVx_of_inside x h, fun r hr => byteAt_storeBlock s hr, fun b hb => ?outside, rfl⟩
  case outside => exact byteAt_store_outside s (by rwa [registerBlock_length])

/-- The register `r` after a load of the block from `I` (R195). -/
theorem withRegisterBlock_get_loaded (s : State) {x r : Reg} (h : r ≤ x) :
    (withRegisterBlock s.V (bytesFrom s (x.val + 1))).get r = s.byteAt (baseAddress s + r.val) := by
  have hr : r.val < x.val + 1 := Nat.lt_succ_of_le h
  simp [withRegisterBlock_get, hr]

/-- Replacing the register file past the word changes no byte, and nothing else but the pc (R109). -/
theorem advance_setRegs_frame (s : State) (v : Vector Byte 16) :
    (∀ a, (s.advance.setRegs v).byteAt a = s.byteAt a) ∧
      s.advance.setRegs v = { s with V := (s.advance.setRegs v).V, pc := s.pc + 2 } :=
  ⟨fun _ => rfl, rfl⟩

/-- Settles O24: the register file with the block loaded; memory is only read. -/
theorem ldVxMemLoadsRegisters : Obligations.LdVxMemLoadsRegisters := by
  intro x s h
  refine ⟨_, exec_ldVxMem_of_inside x h, fun r hr => withRegisterBlock_get_loaded s hr, fun r hr => ?above,
    advance_setRegs_frame ..⟩
  case above => exact withRegisterBlock_get_above s.V (by simpa using hr)

/-- Settles O57: the fetch reads the two bytes of the block just stored. -/
theorem storedCodeIsFetched : Obligations.StoredCodeIsFetched := by
  intro x lo hi s t target hrange h hadj hlo htarget
  obtain rfl := Host.Outcome.next.inj ((exec_ldMemVx_of_inside x hrange).symm.trans h)
  have hlo' : lo.val ≤ x.val := hlo
  have hhi : hi ≤ x := by
    rw [Fin.le_def]
    omega
  rw [fetch_ok _ (by rw [State.setPc_pc]; omega)]
  have hfirst := byteAt_storeBlock s hhi
  have hsecond := byteAt_storeBlock s hlo
  rw [State.wordAt, State.setPc_pc, htarget, Nat.add_assoc, hadj]
  exact congrArg Except.ok (congrArg₂ wordOfBytes hfirst hsecond)

end Sys2Proof.Machine

/-! SUPPORT. Ex9E, ExA1 and Fx0A (spec/45_input.md R211 to R216). -/
namespace Sys2Proof.Machine

theorem exec_skp_of_key {x k : Reg} {s : State} (h : (s.readV x).toNat = k.val) :
    exec (.skp x) s = .next (s.advanceSkipIf (s.keys.get k)) := by
  obtain ⟨j, hj, he⟩ | ⟨hge, -⟩ := execSkp_cases x s
  · obtain rfl : j = k := Fin.ext (hj.trans h)
    exact he
  · omega

theorem exec_sknp_of_key {x k : Reg} {s : State} (h : (s.readV x).toNat = k.val) :
    exec (.sknp x) s = .next (s.advanceSkipIf (!s.keys.get k)) := by
  obtain ⟨j, hj, he⟩ | ⟨hge, -⟩ := execSknp_cases x s
  · obtain rfl : j = k := Fin.ext (hj.trans h)
    exact he
  · omega

/-- The conditional skip as one update of the pc, its two advances added up (R105, R107). -/
theorem advanceSkipIf_eq_add_four (s : State) (b : Bool) :
    s.advanceSkipIf b = { s with pc := if b then s.pc + 4 else s.pc + 2 } := by
  have hfour : s.pc + 2 + 2 = s.pc + 4 := BitVec.add_assoc s.pc 2 2
  rw [State.advanceSkipIf_eq_setPc, hfour]
  rfl

/-- Settles O25: the skip's condition is the key's entry, or its negation. -/
theorem keySkipsTestTheKey : Obligations.KeySkipsTestTheKey := by
  intro x k s h
  rw [exec_skp_of_key h, exec_sknp_of_key h, advanceSkipIf_eq_add_four, advanceSkipIf_eq_add_four]
  cases s.keys.get k <;> exact ⟨rfl, rfl⟩

theorem exec_skp_of_index_above (x : Reg) {s : State} (h : 16 ≤ (s.readV x).toNat) :
    exec (.skp x) s = raise (.outOfBounds (s.readV x).toNat s.pc) s :=
  (execSkp_cases x s).elim (fun ⟨k, hk, _⟩ => absurd k.isLt (by omega)) And.right

theorem exec_sknp_of_index_above (x : Reg) {s : State} (h : 16 ≤ (s.readV x).toNat) :
    exec (.sknp x) s = raise (.outOfBounds (s.readV x).toNat s.pc) s :=
  (execSknp_cases x s).elim (fun ⟨k, hk, _⟩ => absurd k.isLt (by omega)) And.right

/-- Settles O26: both raise the error of the key index. -/
theorem keyIndexAboveFifteenFaults : Obligations.KeyIndexAboveFifteenFaults :=
  fun x _ h => ⟨⟨_, exec_skp_of_index_above x h, rfl, rfl⟩, ⟨_, exec_sknp_of_index_above x h, rfl, rfl⟩⟩

theorem decode_wordXkk_ldVxK (x : Reg) : decode (wordXkk 0xF x 0x0A) = .ok (.ldVxK x) := decode_encode (.ldVxK x)

theorem exec_ldVxK (x : Reg) (s : State) : exec (.ldVxK x) s = .next (s.setStatus (.awaitingKey x s.keys)) := rfl

/-- Settles O27: one update of the status. -/
theorem ldVxKSuspends : Obligations.LdVxKSuspends :=
  ⟨decode_wordXkk_ldVxK, fun x s => ⟨_, exec_ldVxK x s, rfl, rfl, fun _ => rfl, fun _ => rfl, rfl⟩⟩

end Sys2Proof.Machine

/-! SUPPORT. The frames of the instructions of one destination (spec/40_execution_cycle.md R109): each next state is
one field update past the word, or one update of the pc. -/
namespace Sys2Proof.Machine

/-- Settles O59: no field but the destination and the pc is written by the update. -/
theorem specialDestinationFrames : Obligations.SpecialDestinationFrames := by
  refine fun s t => ⟨fun nnn h => ?_, fun x h => ?_, fun x h => ?_, fun h => ?_⟩ <;> cases h <;>
    exact ⟨fun _ => rfl, fun _ => rfl, rfl⟩

/-- Settles O58: one register write past the word; a conditional skip, or the update of the pc by the jump. -/
theorem registerAndSkipFrames : Obligations.RegisterAndSkipFrames := by
  refine ⟨fun i x s t hi h => ?register, fun i s t hi h => ?pcOnly⟩
  case register =>
    rcases hi with ⟨kk, rfl⟩ | ⟨kk, rfl⟩ | ⟨y, rfl⟩ | rfl <;> cases h <;>
      exact ⟨fun r hr => readV_advance_writeV_of_ne _ _ _ hr.symm, fun _ => rfl, rfl⟩
  case pcOnly =>
    rcases hi with ⟨x, kk, rfl⟩ | ⟨x, kk, rfl⟩ | ⟨x, y, rfl⟩ | ⟨x, y, rfl⟩ | ⟨nnn, rfl⟩ <;> cases h
    case inr.inr.inr.inr => exact ⟨fun _ => rfl, fun _ => rfl, rfl⟩
    all_goals exact ⟨fun _ => readV_advanceSkipIf .., byteAt_congr (by simp) (by simp), State.advanceSkipIf_eq ..⟩

end Sys2Proof.Machine

/-! SUPPORT. Dxyn (spec/41_display.md R131 to R134): what a draw that completes has done, in terms of the covered
pixels; a second draw covers the same pixels. -/
namespace Sys2Proof.Machine

/-- The pixels of the sprite at `I` are the covered ones (R131 to R133). -/
theorem mem_spritePixels_iff_covers (s : State) (x y : Reg) (n : Fin 16) (c : Fin 64) (r : Fin 32) :
    (c, r) ∈ spritePixels (s.readV x) (s.readV y) 0 (bytesFrom s n.val) ↔ s.spriteCovers x y n c r := by
  rw [mem_spritePixels]
  simp [State.spriteCovers, spriteBit, baseAddress, pixelColumn, pixelRow, Fin.ext_iff]

theorem bytesFrom_length_le (s : State) (n : Fin 16) : (bytesFrom s n.val).length ≤ 32 := by
  have := n.isLt
  rw [List.length_map, List.length_range]
  omega

/-- What a draw that completes has done (R131, R134, R109). -/
structure Drawn (x y : Reg) (n : Fin 16) (s t : State) : Prop where
  covered : ∀ c r, s.spriteCovers x y n c r → t.disp.pixel c r = !(s.disp.pixel c r)
  uncovered : ∀ c r, ¬ s.spriteCovers x y n c r → t.disp.pixel c r = s.disp.pixel c r
  erased : (∃ c r, s.spriteCovers x y n c r ∧ s.disp.pixel c r = true) → t.readV 15 = 1
  notErased : (¬ ∃ c r, s.spriteCovers x y n c r ∧ s.disp.pixel c r = true) → t.readV 15 = 0
  others : ∀ r, r ≠ 15 → t.readV r = s.readV r
  bytes : ∀ a, t.byteAt a = s.byteAt a
  frame : t = { s with disp := t.disp, V := t.V, pc := s.pc + 2 }

/-- The mark of the sprite at `I`: a covered pixel was on (R134). -/
theorem drawSprite_erased_iff (x y : Reg) (n : Fin 16) (s : State) :
    (drawSprite (s.readV x) (s.readV y) (bytesFrom s n.val) s.disp).2 = true ↔
      ∃ c r, s.spriteCovers x y n c r ∧ s.disp.pixel c r = true := by
  rw [drawSprite_erased _ _ _ (bytesFrom_length_le s n)]
  simp only [Prod.exists, mem_spritePixels_iff_covers]

/-- Dxyn completes where its bytes are in memory (R131, R136). -/
theorem exec_drw_drawn (x y : Reg) (n : Fin 16) (s : State) (h : n = 0 ∨ s.I.toNat + n.val ≤ 4096) :
    ∃ t, exec (.drw x y n) s = .next t ∧ Drawn x y n s t := by
  have hpixel := drawSprite_pixel (s.readV x) (s.readV y) (bytesFrom s n.val) (bytesFrom_length_le s n) s.disp
  have hflag := drawSprite_erased_iff x y n s
  refine ⟨_, exec_drw_of_inside x y n (h.imp_left (congrArg Fin.val)), fun c r hc => ?covered,
    fun c r hc => ?uncovered, fun he => ?erased, fun he => ?notErased, fun r hr => ?others, byteAt_congr rfl rfl, rfl⟩
  case covered => exact (hpixel c r).trans (if_pos ((mem_spritePixels_iff_covers s x y n c r).2 hc))
  case uncovered => exact (hpixel c r).trans (if_neg (mt (mem_spritePixels_iff_covers s x y n c r).1 hc))
  case erased =>
    rw [readV_writeV, if_pos rfl, hflag.2 he]
    rfl
  case notErased =>
    rw [readV_writeV, if_pos rfl, Bool.eq_false_iff.2 (mt hflag.1 he)]
    rfl
  case others => rw [readV_writeV, if_neg hr, readV_setDisp, readV_advance]

/-- Settles O2: `exec_drw_drawn`, with the effect of a draw taken apart. -/
theorem drwXorsSpriteOntoDisplay : Obligations.DrwXorsSpriteOntoDisplay := by
  intro x y n s h
  obtain ⟨t, ht, hd⟩ := exec_drw_drawn x y n s h
  exact ⟨t, ht, hd.covered, hd.uncovered, hd.erased, hd.notErased, hd.others, hd.bytes, hd.frame⟩

theorem drawn_of_exec_drw {x y : Reg} {n : Fin 16} {s t : State} (h : n = 0 ∨ s.I.toNat + n.val ≤ 4096)
    (ht : exec (.drw x y n) s = .next t) : Drawn x y n s t := by
  obtain ⟨u, hu, hd⟩ := exec_drw_drawn x y n s h
  cases hu.symm.trans ht
  exact hd

theorem Drawn.I_eq {x y : Reg} {n : Fin 16} {s t : State} (hd : Drawn x y n s t) : t.I = s.I := by
  rw [hd.frame]

/-- A second draw with the coordinate registers as before covers the same pixels. -/
theorem Drawn.covers_iff {x y : Reg} {n : Fin 16} {s t : State} (hd : Drawn x y n s t) (hx : t.readV x = s.readV x)
    (hy : t.readV y = s.readV y) (c : Fin 64) (r : Fin 32) :
    t.spriteCovers x y n c r ↔ s.spriteCovers x y n c r := by
  simp only [State.spriteCovers, hd.I_eq, hd.bytes, hx, hy]

/-- Settles O3: a covered pixel is flipped twice; it is on before the second draw exactly when it was off before the
first. -/
theorem drwTwiceRestoresDisplay : Obligations.DrwTwiceRestoresDisplay := by
  intro x y n s t u h hst hx hy htu
  have first : Drawn x y n s t := drawn_of_exec_drw h hst
  have second : Drawn x y n t u := drawn_of_exec_drw (first.I_eq ▸ h) htu
  have covers := first.covers_iff hx hy
  have lit : (∃ c r, s.spriteCovers x y n c r ∧ s.disp.pixel c r = false) ↔
      ∃ c r, t.spriteCovers x y n c r ∧ t.disp.pixel c r = true := by
    refine exists_congr fun c => exists_congr fun r => ?_
    rw [covers]
    refine and_congr_right fun hc => ?_
    rw [first.covered c r hc, Bool.not_eq_true']
  refine ⟨display_ext fun c r => ?pixel, fun hoff => second.erased (lit.1 hoff),
    fun hon => second.notErased (mt lit.2 hon)⟩
  case pixel =>
    by_cases hc : s.spriteCovers x y n c r
    · rw [second.covered c r ((covers c r).2 hc), first.covered c r hc, Bool.not_not]
    · rw [second.uncovered c r (mt (covers c r).1 hc), first.uncovered c r hc]

end Sys2Proof.Machine
